-- ==== Sys2Proof/Word.lean ====
section
/-! DEFINITION. Word.lean: the two word types of the block (00_scope.md R11: every value is unsigned). -/

namespace Sys2Proof

/-- `u8`: a byte of a frame, a packet or OUT. -/
abbrev Byte := BitVec 8

/-- `u16`: a 16-bit field, most significant byte first on the wire (20_memory.md R44). -/
abbrev Word := BitVec 16

end Sys2Proof
end

