-- ==== Sys2Proof/Config.lean ====
section
/-! DEFINITION. Config.lean: the two parameters fixed before the first command (00_scope.md R7, R8; 10_state.md R32,
R34; 70_reset_and_hazards.md R152). The spec leaves no value free, so there is no opaque constant here. -/

namespace Sys2Proof

/-- The configuration registers. They stand in State because the host reads them and the rules are stated for every
value of them; no step changes them (log 3, log 4). -/
structure Config where
  /-- MAX_REGISTERS, 8 bits (10_state.md R32). -/
  maxRegisters : BitVec 8
  /-- FC_CHECK, 1 bit (10_state.md R34). -/
  fcCheck : Bool
deriving DecidableEq, Repr

/-- The defaults: MAX_REGISTERS = 123 and FC_CHECK = false (00_scope.md R7, R8). -/
def Config.default : Config := { maxRegisters := 123, fcCheck := false }

/-- The legal range 1 ≤ MAX_REGISTERS ≤ 127 (00_scope.md R7). -/
abbrev Config.legal (c : Config) : Prop := 1 ≤ c.maxRegisters.toNat ∧ c.maxRegisters.toNat ≤ 127

end Sys2Proof
end

