-- ==== Sys2Proof/Syntax.lean ====
section
/-! DEFINITION. Syntax.lean: the operand records and the four commands (00_scope.md R13, 30_encoding.md R70). -/

namespace Sys2Proof

/-- A request value. Only the three stored fields: functionCode, numberOfPoints and byteCount are derived
(10_state.md R24), so they cannot disagree with the data. -/
structure Req where
  slave : Byte
  start : Word
  data : List Word
deriving DecidableEq, Repr

/-- A response value: the start address and count the device reports (10_state.md R38, 41_validator.md R110). -/
structure Rsp where
  start : Word
  count : Word
deriving DecidableEq, Repr

/-- The commands at the typed level, one constructor per row of the opcode table. -/
inductive Instr where
  /-- 0x01 CONSTRUCT (40_codec.md R85) -/
  | construct (slave : Byte) (start : Word) (data : List Word)
  /-- 0x02 ENCODE (40_codec.md R90) -/
  | encode (r : Req)
  /-- 0x03 DECODE (40_codec.md R95) -/
  | decode (f : List Byte)
  /-- 0x04 VALIDATE (41_validator.md R111) -/
  | validate (r : Req) (rsp : Rsp)
deriving DecidableEq, Repr

end Sys2Proof
end

