-- ==== Sys2Proof/WellFormed.lean ====
section
/-! DEFINITION. WellFormed.lean: which commands a packet can carry, and the spec's predicate WF on requests. -/

namespace Sys2Proof

/-- The port capacities (00_scope.md R9): L is one byte and M is two, so a packet carries at most 255 register values
and a frame of at most 65535 bytes. The typed level has no such bound (R13): `exec` runs commands of any length. -/
def Instr.wellFormed : Instr → Bool
  | .construct _ _ data => data.length ≤ 255
  | .encode r => r.data.length ≤ 255
  | .decode f => f.length ≤ 65535
  | .validate r _ => r.data.length ≤ 255

/-- `WF(r) := 1 ≤ len(r.data) ≤ MAX_REGISTERS` (10_state.md R24). -/
abbrev Req.WF (cfg : Config) (r : Req) : Prop :=
  1 ≤ r.data.length ∧ r.data.length ≤ cfg.maxRegisters.toNat

end Sys2Proof
end

