-- ==== Sys2Proof/Decode.lean ====
section
/-! DEFINITION. Decode.lean: big-endian assembly, the request serialization REQSER, the packet decoder, total on any
bytes, and the packet encoder (20_memory.md R42 to R45, 30_encoding.md R64 to R71). -/

namespace Sys2Proof

/-! ## Byte order -/

/-- `v[15:8]` -/
def hiByte (w : Word) : Byte := w.extractLsb' 8 8

/-- `v[7:0]` -/
def loByte (w : Word) : Byte := w.extractLsb' 0 8

/-- Big-endian assembly `hi * 256 + lo` (20_memory.md R42). -/
def beWord (hi lo : Byte) : Word := BitVec.ofNat 16 (hi.toNat * 256 + lo.toNat)

/-- The two bytes of a 16-bit field, most significant first (20_memory.md R44). -/
def beBytes (w : Word) : List Byte := [hiByte w, loByte w]

/-- Register values in list order, two bytes each (30_encoding.md R64). -/
def dataBytes : List Word → List Byte
  | [] => []
  | w :: ws => hiByte w :: loByte w :: dataBytes ws

/-- Pairs of bytes read as register values, in order; an odd byte at the end belongs to no pair. -/
def pairWords : List Byte → List Word
  | hi :: lo :: rest => beWord hi lo :: pairWords rest
  | _ => []

/-- REQSER(r), the request serialization (30_encoding.md R64). L is one byte. -/
def reqser (r : Req) : List Byte :=
  r.slave :: hiByte r.start :: loByte r.start :: BitVec.ofNat 8 r.data.length :: dataBytes r.data

/-! ## The packet decoder -/

/-- Why a byte sequence is no command packet: the two causes of ILLEGAL_COMMAND (60_exceptions.md R125). -/
inductive PacketError where
  /-- UNKNOWN_CODE: `p[0]` is none of 0x01 to 0x04. -/
  | unknownCode (code : Byte)
  /-- BAD_LENGTH: the length the packet should have, and the length it has. -/
  | badLength (expected received : Nat)
deriving DecidableEq, Repr

/-- The bytes after the command code of a packet that begins with a REQSER and ends with `extra` more bytes: the request
and those bytes (30_encoding.md R69, the branch of codes 0x01, 0x02 and 0x04). Lengths count the command code. -/
def splitRequest (extra : Nat) : List Byte → Except PacketError (Req × List Byte)
  | slave :: s1 :: s0 :: l :: rest =>
    if rest.length = 2 * l.toNat + extra then
      .ok ({ slave := slave, start := beWord s1 s0, data := pairWords (rest.take (2 * l.toNat)) },
        rest.drop (2 * l.toNat))
    else .error (.badLength (5 + 2 * l.toNat + extra) (5 + rest.length))
  | short => .error (.badLength 5 (1 + short.length))

/-- The bytes after the command code of a DECODE packet (30_encoding.md R67, R69). -/
def splitFrame : List Byte → Except PacketError (List Byte)
  | m1 :: m0 :: f =>
    if f.length = (beWord m1 m0).toNat then .ok f
    else .error (.badLength (3 + (beWord m1 m0).toNat) (3 + f.length))
  | short => .error (.badLength 3 (1 + short.length))

/-- The four bytes after the request of a VALIDATE packet (30_encoding.md R68). `splitRequest 4` hands over exactly
four, so the last arm is not reached. -/
def readRsp : List Byte → Except PacketError Rsp
  | [s1, s0, c1, c0] => .ok { start := beWord s1 s0, count := beWord c1 c0 }
  | other => .error (.badLength 4 other.length)

/-- DecodePacket of 30_encoding.md R69: the empty packet first, then the code, then the length. -/
def decodePacket : List Byte → Except PacketError Instr
  | [] => .error (.badLength 1 0)
  | c :: operands =>
    if c = 0x01 then do
      let (r, _) ← splitRequest 0 operands
      .ok (.construct r.slave r.start r.data)
    else if c = 0x02 then do
      let (r, _) ← splitRequest 0 operands
      .ok (.encode r)
    else if c = 0x03 then do
      let f ← splitFrame operands
      .ok (.decode f)
    else if c = 0x04 then do
      let (r, tail) ← splitRequest 4 operands
      let rsp ← readRsp tail
      .ok (.validate r rsp)
    else .error (.unknownCode c)

/-- A REQSER read back as a request: what the host does with the OUT of CONSTRUCT and DECODE (30_encoding.md R73). -/
def parseReqser (p : List Byte) : Option Req :=
  match splitRequest 0 p with
  | .ok (r, _) => some r
  | .error _ => none

/-! ## The packet encoder -/

/-- The command packet of a well-formed command (30_encoding.md R65 to R68). -/
def encode : Instr → List Byte
  | .construct slave start data => 0x01 :: reqser { slave := slave, start := start, data := data }
  | .encode r => 0x02 :: reqser r
  | .decode f =>
    0x03 :: hiByte (BitVec.ofNat 16 f.length) :: loByte (BitVec.ofNat 16 f.length) :: f
  | .validate r rsp => 0x04 :: (reqser r ++ (beBytes rsp.start ++ beBytes rsp.count))

/-! ## The host's numbered words -/

/-- The length a packet beginning with these bytes declares, every byte after them being 0 (30_encoding.md R69). -/
def declaredLength (p : List Byte) : Nat :=
  let code := p.getD 0 0
  if code = 0x01 ∨ code = 0x02 then 5 + 2 * (p.getD 4 0).toNat
  else if code = 0x03 then 3 + (beWord (p.getD 1 0) (p.getD 2 0)).toNat
  else if code = 0x04 then 9 + 2 * (p.getD 4 0).toNat
  else p.length

/-- The packet whose bits are `w`, bit 0 the least significant bit of the first byte, followed by as many zero bytes as
the packet declares (log 12). -/
def tablePacket (nbits w : Nat) : List Byte :=
  let p : List Byte := (List.range ((nbits + 7) / 8)).map fun i => BitVec.ofNat 8 (w / 256 ^ i)
  p ++ List.replicate (declaredLength p - p.length) 0

/-- The command the packet decoder reads from the numbered word, `none` where it raises ILLEGAL_COMMAND. -/
def decodeTableWord (nbits w : Nat) : Option Instr :=
  match decodePacket (tablePacket nbits w) with
  | .ok i => some i
  | .error _ => none

end Sys2Proof
end

