-- ==== Sys2Proof/Machine/State.lean ====
section
/-! DEFINITION. Machine/State.lean: the latches, the configuration, the host's pending program, and the machine right
after reset (10_state.md R20 to R37). -/

namespace Sys2Proof.Machine

/-- STATUS.CODE by name (10_state.md R26). The reserved values 6 to 14 are never written, so they have no name; the
4-bit numbers are `Code.bits` (log 13). -/
inductive Code where
  | ok
  | outOfRange
  | malformedFrame
  | unexpectedStartAddress
  | unexpectedNumberOfPoints
  | illegalCommand
  /-- NONE: no command has completed since reset. -/
  | noneYet
deriving DecidableEq, Repr

/-- STATUS.SUB by name (10_state.md R27); `noSub` is SUB = 0. The 4-bit numbers are `Sub.bits`. -/
inductive Sub where
  | noSub
  | aboveMax
  | belowMin
  | shortHeader
  | functionCode
  | shortData
  | byteCountMismatch
  | unknownCode
  | badLength
deriving DecidableEq, Repr

/-- The STATUS output register (10_state.md R25 to R29). -/
structure Status where
  code : Code
  sub : Sub
  mmStart : Bool
  mmCount : Bool
  expA : Word
  rcvA : Word
  expB : Word
  rcvB : Word
deriving DecidableEq, Repr

/-- What a command returns at the typed level, the context as natural numbers (00_scope.md R13). -/
inductive Result where
  | ok (out : List Byte)
  | err (code : Code) (sub : Sub) (expA rcvA expB rcvB : Nat)
deriving DecidableEq, Repr

/-- One thing the host does to the block (10_state.md R23, 70_reset_and_hazards.md R150, R158). -/
inductive HostEvent where
  /-- issue a command as a packet on the command port (30_encoding.md R64) -/
  | packet (p : List Byte)
  /-- issue a command at the typed level (00_scope.md R13) -/
  | command (i : Instr)
  /-- reset between commands (70_reset_and_hazards.md R150) -/
  | reset
  /-- a packet issued and overtaken by reset before it completed (R150, 93 I11; log 9) -/
  | resetInside (p : List Byte)
deriving DecidableEq, Repr

/-- The machine. FUNCTION_CODE is hardwired (10_state.md R33) and has no storage (log 10); STATUS0 to STATUS2 are views
of `status` (R31). -/
structure State where
  /-- STATUS -/
  status : Status
  /-- OUT -/
  out : List Byte
  /-- MAX_REGISTERS and FC_CHECK -/
  cfg : Config
  /-- the model's own: what the host has still to do, the next event first (log 1) -/
  pending : List HostEvent
deriving DecidableEq, Repr

/-- Why the model stops. No command of the spec reaches the first two (40_codec.md R95, R90), and commands never read
STATUS (10_state.md R20). -/
inductive Fault where
  /-- A read of the input frame at a + n > len(f): raised by `memReadByte` and `memReadHalf` (20_memory.md R42, 93 I9).
  Safe: the model stops. -/
  | frameReadOutside
  /-- A write of the output frame outside its offsets: raised by `memWriteByte` and `memWriteHalf` (20_memory.md R41;
  log 7). Safe: the model stops. -/
  | frameWriteOutside
  /-- A STATUS value outside the tables of 10_state.md R26, R27 and R31: raised when the host reads or unpacks STATUS
  (93 I8; log 8). Safe: the model stops. -/
  | reservedStatus
deriving DecidableEq, Repr

/-- Instructions without a meaning. Every instruction of the table has one. -/
inductive Refusal where
  /-- Raised by a refused arm of `exec`. Safe: the model stops. -/
  | notModelled (mnemonic : String)
deriving DecidableEq, Repr

/-- STATUS after reset: CODE = NONE, every other field 0 (10_state.md R37). -/
def Status.afterReset : Status :=
  { code := .noneYet, sub := .noSub, mmStart := false, mmCount := false,
    expA := 0, rcvA := 0, expB := 0, rcvB := 0 }

/-- The machine right after reset (10_state.md R37), configured with the defaults of 00_scope.md R7 and R8 (log 3) and
with no host event pending (log 1). -/
def State.reset : State :=
  { status := Status.afterReset, out := [], cfg := Config.default, pending := [] }

end Sys2Proof.Machine
end

