-- ==== Sys2Proof/Machine/Operands.lean ====
section
/-! DEFINITION. Machine/Operands.lean: the fixed constants, the derived views of a request, and the access primitives on
the two frame spaces (00_scope.md R10, R12; 10_state.md R24; 20_memory.md R40 to R47). -/

namespace Sys2Proof

/-- FUNCTION_CODE, hardwired (10_state.md R33). -/
def functionCode : Byte := 0x10

/-- HEADER_LEN (00_scope.md R10). -/
def headerLen : Nat := 7

/-- DATA_OFFSET (00_scope.md R10). -/
def dataOffset : Nat := 7

/-- BYTECOUNT_OFFSET (00_scope.md R10). -/
def byteCountOffset : Nat := 6

/-- numberOfPoints(r) = len(r.data) (40_codec.md R81). -/
def Req.numberOfPoints (r : Req) : Nat := r.data.length

/-- byteCount(r) = 2 * len(r.data), recomputed at every use (40_codec.md R81). -/
def Req.byteCount (r : Req) : Nat := 2 * r.data.length

/-- functionCode(r), always FUNCTION_CODE (10_state.md R24). -/
def Req.functionCode (_ : Req) : Byte := Sys2Proof.functionCode

end Sys2Proof

namespace Sys2Proof.Machine

/-- The frame offset of lane i (40_codec.md R82, 20_memory.md R57). -/
def laneOffset (i : Nat) : Nat := dataOffset + 2 * i

/-! ## Reading the input frame -/

/-- MemRead(a, 1) (20_memory.md R42). -/
def memReadByte (f : List Byte) (a : Nat) : Except Fault Byte :=
  match f[a]? with
  | some b => .ok b
  | none => .error .frameReadOutside

/-- MemRead(a, 2), big-endian (20_memory.md R42). -/
def memReadHalf (f : List Byte) (a : Nat) : Except Fault Word := do
  let hi ← memReadByte f a
  let lo ← memReadByte f (a + 1)
  .ok (beWord hi lo)

/-- Lanes i, i+1, … of the input frame, n of them (30_encoding.md R63). -/
def readLanes (f : List Byte) : Nat → Nat → Except Fault (List Word)
  | _, 0 => .ok []
  | i, n + 1 => do
    let w ← memReadHalf f (laneOffset i)
    let ws ← readLanes f (i + 1) n
    .ok (w :: ws)

/-! ## Writing the output frame -/

/-- MemWrite(a, 1, v) (20_memory.md R43). -/
def memWriteByte (g : List Byte) (a : Nat) (v : Byte) : Except Fault (List Byte) :=
  if a < g.length then .ok (g.set a v) else .error .frameWriteOutside

/-- MemWrite(a, 2, v), big-endian (20_memory.md R43). -/
def memWriteHalf (g : List Byte) (a : Nat) (v : Word) : Except Fault (List Byte) := do
  let g ← memWriteByte g a (hiByte v)
  memWriteByte g (a + 1) (loByte v)

/-- Write the lanes from lane i on, in list order (40_codec.md R82). -/
def writeLanes (g : List Byte) : Nat → List Word → Except Fault (List Byte)
  | _, [] => .ok g
  | i, w :: ws => do
    let g ← memWriteHalf g (laneOffset i) w
    writeLanes g (i + 1) ws

/-- "A fresh byte sequence of length 7 + 2N" (40_codec.md R90). What it holds is written over at every offset
(20_memory.md R41), so the zero here is never seen (log 6). -/
def freshFrame (n : Nat) : List Byte := List.replicate n 0

end Sys2Proof.Machine
end

