-- ==== Sys2Proof/Machine/Flags.lean ====
section
/-! DEFINITION. Machine/Flags.lean: the numbers of CODE and SUB, the packed view of STATUS and its reading back, and
the values VALIDATE writes (10_state.md R26 to R31, 41_validator.md R111). -/

namespace Sys2Proof.Machine

/-- The 4-bit value of CODE (10_state.md R26). -/
def Code.bits : Code → BitVec 4
  | .ok => 0
  | .outOfRange => 1
  | .malformedFrame => 2
  | .unexpectedStartAddress => 3
  | .unexpectedNumberOfPoints => 4
  | .illegalCommand => 5
  | .noneYet => 15

/-- The 4-bit value of SUB (10_state.md R27). -/
def Sub.bits : Sub → BitVec 4
  | .noSub => 0
  | .aboveMax => 1
  | .belowMin => 2
  | .shortHeader => 1
  | .functionCode => 2
  | .shortData => 3
  | .byteCountMismatch => 4
  | .unknownCode => 1
  | .badLength => 2

/-- Which CODE a SUB name is listed under (10_state.md R27); `noSub` is for "every other CODE". -/
def Code.listed : Code → Sub → Bool
  | .outOfRange, .aboveMax => true
  | .outOfRange, .belowMin => true
  | .malformedFrame, .shortHeader => true
  | .malformedFrame, .functionCode => true
  | .malformedFrame, .shortData => true
  | .malformedFrame, .byteCountMismatch => true
  | .illegalCommand, .unknownCode => true
  | .illegalCommand, .badLength => true
  | .ok, .noSub => true
  | .unexpectedStartAddress, .noSub => true
  | .unexpectedNumberOfPoints, .noSub => true
  | .noneYet, .noSub => true
  | _, _ => false

/-- The CODE with a 4-bit value; the reserved values have none (10_state.md R26). -/
def Code.ofBits (b : BitVec 4) : Option Code :=
  if b = 0 then some .ok
  else if b = 1 then some .outOfRange
  else if b = 2 then some .malformedFrame
  else if b = 3 then some .unexpectedStartAddress
  else if b = 4 then some .unexpectedNumberOfPoints
  else if b = 5 then some .illegalCommand
  else if b = 15 then some .noneYet
  else none

/-- The SUB with a 4-bit value under a CODE; unlisted values have none (10_state.md R27). -/
def Sub.ofBits (c : Code) (b : BitVec 4) : Option Sub :=
  match c with
  | .outOfRange => if b = 1 then some .aboveMax else if b = 2 then some .belowMin else none
  | .malformedFrame =>
    if b = 1 then some .shortHeader
    else if b = 2 then some .functionCode
    else if b = 3 then some .shortData
    else if b = 4 then some .byteCountMismatch
    else none
  | .illegalCommand => if b = 1 then some .unknownCode else if b = 2 then some .badLength else none
  | .ok => if b = 0 then some .noSub else none
  | .unexpectedStartAddress => if b = 0 then some .noSub else none
  | .unexpectedNumberOfPoints => if b = 0 then some .noSub else none
  | .noneYet => if b = 0 then some .noSub else none

/-! ## The packed view -/

/-- STATUS0: CODE at [3:0], SUB at [7:4], MM_START at [8], MM_COUNT at [9], zero above (10_state.md R31). -/
def Status.word0 (st : Status) : BitVec 32 :=
  BitVec.ofNat 32 (st.code.bits.toNat + 16 * st.sub.bits.toNat + 256 * st.mmStart.toNat + 512 * st.mmCount.toNat)

/-- STATUS1: EXP_A at [15:0], RCV_A at [31:16] (10_state.md R31). -/
def Status.word1 (st : Status) : BitVec 32 := BitVec.ofNat 32 (st.expA.toNat + 65536 * st.rcvA.toNat)

/-- STATUS2: EXP_B at [15:0], RCV_B at [31:16] (10_state.md R31). -/
def Status.word2 (st : Status) : BitVec 32 := BitVec.ofNat 32 (st.expB.toNat + 65536 * st.rcvB.toNat)

/-- The eight fields read back from the packed words. A reserved CODE, an unlisted SUB or a reserved bit that is 1
faults (93 I8; log 8). -/
def Status.ofWords (w0 w1 w2 : BitVec 32) : Except Fault Status :=
  if w0.extractLsb' 10 22 = 0 then
    match Code.ofBits (w0.extractLsb' 0 4) with
    | none => .error .reservedStatus
    | some c =>
      match Sub.ofBits c (w0.extractLsb' 4 4) with
      | none => .error .reservedStatus
      | some sb =>
        .ok { code := c, sub := sb, mmStart := w0.getLsbD 8, mmCount := w0.getLsbD 9,
              expA := w1.extractLsb' 0 16, rcvA := w1.extractLsb' 16 16,
              expB := w2.extractLsb' 0 16, rcvB := w2.extractLsb' 16 16 }
  else .error .reservedStatus

/-! ## The values commands write -/

/-- STATUS of a successful CONSTRUCT, ENCODE or DECODE: everything 0 (10_state.md R29, 60_exceptions.md R126). -/
def Status.success : Status :=
  { code := .ok, sub := .noSub, mmStart := false, mmCount := false, expA := 0, rcvA := 0, expB := 0, rcvB := 0 }

/-- The CODE a typed result carries (60_exceptions.md R120). -/
def Result.code : Result → Code
  | .ok _ => .ok
  | .err c _ _ _ _ _ => c

/-- The typed result of VALIDATE (00_scope.md R13, 41_validator.md R111): the first failing check names the code
(60_exceptions.md R132). Counts are compared as naturals. -/
def validateResult (r : Req) (rsp : Rsp) : Result :=
  if r.start ≠ rsp.start then
    .err .unexpectedStartAddress .noSub r.start.toNat rsp.start.toNat r.numberOfPoints rsp.count.toNat
  else if r.numberOfPoints ≠ rsp.count.toNat then
    .err .unexpectedNumberOfPoints .noSub r.start.toNat rsp.start.toNat r.numberOfPoints rsp.count.toNat
  else .ok []

/-- STATUS as VALIDATE writes it: both flags and both context pairs, on success and on failure (41_validator.md R111,
10_state.md R28, R29). The 16-bit fields hold values modulo 2^16 (log 5). -/
def validateStatus (r : Req) (rsp : Rsp) : Status :=
  { code := (validateResult r rsp).code
    sub := .noSub
    mmStart := r.start ≠ rsp.start
    mmCount := r.numberOfPoints ≠ rsp.count.toNat
    expA := r.start
    rcvA := rsp.start
    expB := BitVec.ofNat 16 r.numberOfPoints
    rcvB := rsp.count }

end Sys2Proof.Machine
end

