-- ==== Sys2Proof/Machine/Ops.lean ====
section
/-! DEFINITION. Machine/Ops.lean: completing a command, raising an error, the range check, reset and the host's read
port (00_scope.md R12, 60_exceptions.md R128, 40_codec.md R80, 70_reset_and_hazards.md R150, 10_state.md R35). There is
no return from an error (60_exceptions.md R134): the next command simply runs. -/

namespace Sys2Proof.Machine

/-- Both latches are written at completion, and nothing else (10_state.md R25, R30). -/
def State.complete (st : Status) (out : List Byte) (s : State) : State := { s with status := st, out := out }

/-- `raise E(sub, exp, rcv)` as a typed result (00_scope.md R12). -/
def Result.raise (code : Code) (sub : Sub) (exp rcv : Nat) : Result := .err code sub exp rcv 0 0

/-- STATUS of an error of CONSTRUCT, ENCODE, DECODE or the packet decoder (60_exceptions.md R128). The 16-bit fields
hold the context modulo 2^16 (10_state.md R29; log 5). -/
def Status.error (code : Code) (sub : Sub) (expA rcvA expB rcvB : Nat) : Status :=
  { code := code, sub := sub, mmStart := false, mmCount := false,
    expA := BitVec.ofNat 16 expA, rcvA := BitVec.ofNat 16 rcvA,
    expB := BitVec.ofNat 16 expB, rcvB := BitVec.ofNat 16 rcvB }

/-- Latch a typed result: `return ok(out)` or `raise` (00_scope.md R12). An error leaves OUT empty. VALIDATE does not go
through here (60_exceptions.md R128). -/
def State.deliver (res : Result) (s : State) : State :=
  match res with
  | .ok out => s.complete Status.success out
  | .err code sub expA rcvA expB rcvB => s.complete (Status.error code sub expA rcvA expB rcvB) []

/-- TAKING AN ERROR (60_exceptions.md R128): the one shared operation. -/
def State.raise (code : Code) (sub : Sub) (exp rcv : Nat) (s : State) : State :=
  s.deliver (Result.raise code sub exp rcv)

/-- Complete with a computed result; a fault of the computation stops the model. -/
def State.finish (res : Except Fault Result) (s : State) : Host.Outcome State Fault Refusal :=
  match res with
  | .ok r => .next (s.deliver r)
  | .error e => .fault e

/-- RangeCheck(N): the error it raises, `none` where N passes (40_codec.md R80). -/
def rangeCheck (cfg : Config) (n : Nat) : Option Result :=
  if n > cfg.maxRegisters.toNat then some (.raise .outOfRange .aboveMax cfg.maxRegisters.toNat n)
  else if n = 0 then some (.raise .outOfRange .belowMin 1 0)
  else none

/-- Reset: the latches to their reset values, the configuration as it was (70_reset_and_hazards.md R150). -/
def State.resetBlock (s : State) : State := s.complete Status.afterReset []

/-! ## The host's read port -/

/-- The registers the host can read at any time (10_state.md R31 to R35). -/
inductive HostReg where
  | status0
  | status1
  | status2
  | out
  | maxRegisters
  | functionCode
  | fcCheck
deriving DecidableEq, Repr

/-- What a read of a register gives. -/
inductive RegValue where
  | word (w : BitVec 32)
  | bytes (bs : List Byte)
  | byte (b : Byte)
  | bit (b : Bool)
deriving DecidableEq, Repr

/-- A host read. It has no effect on the state (10_state.md R35, 20_memory.md R49), so it answers a value alone; a
STATUS outside the tables of R26 and R27 faults (93 I8; log 8). -/
def State.hostRead (r : HostReg) (s : State) : Except Fault RegValue :=
  match r with
  | .status0 =>
    if s.status.code.listed s.status.sub then .ok (.word s.status.word0) else .error .reservedStatus
  | .status1 => .ok (.word s.status.word1)
  | .status2 => .ok (.word s.status.word2)
  | .out => .ok (.bytes s.out)
  | .maxRegisters => .ok (.byte s.cfg.maxRegisters)
  | .functionCode => .ok (.byte Sys2Proof.functionCode)
  | .fcCheck => .ok (.bit s.cfg.fcCheck)

end Sys2Proof.Machine
end

