-- ==== Sys2Proof/Machine/Codec.lean ====
section
/-! DEFINITION. Machine/Codec.lean: CONSTRUCT, ENCODE and DECODE (40_codec.md R85, R90, R95). -/

namespace Sys2Proof.Machine

/-! ## CONSTRUCT -/

/-- CONSTRUCT as a function of its operands and the configuration (40_codec.md R85). -/
def constructResult (cfg : Config) (slave : Byte) (start : Word) (data : List Word) : Result :=
  match rangeCheck cfg data.length with
  | some e => e
  | none => .ok (reqser { slave := slave, start := start, data := data })

/-- CONSTRUCT (40_codec.md R85). -/
def execConstruct (slave : Byte) (start : Word) (data : List Word) (s : State) :
    Host.Outcome State Fault Refusal :=
  s.finish (.ok (constructResult s.cfg slave start data))

/-! ## ENCODE -/

/-- The writes of ENCODE into the output frame space g, in the order of 40_codec.md R90. -/
def encodeInto (g : List Byte) (r : Req) : Except Fault (List Byte) := do
  let g ← memWriteByte g 0 r.slave
  let g ← memWriteByte g 1 functionCode
  let g ← memWriteHalf g 2 r.start
  let g ← memWriteHalf g 4 (BitVec.ofNat 16 r.numberOfPoints)
  let g ← memWriteByte g byteCountOffset (BitVec.ofNat 8 r.byteCount)
  writeLanes g 0 r.data

/-- ENCODE as a function of its operand and the configuration (40_codec.md R90). -/
def encodeResult (cfg : Config) (r : Req) : Except Fault Result :=
  match rangeCheck cfg r.numberOfPoints with
  | some e => .ok e
  | none => do
    let g ← encodeInto (freshFrame (headerLen + r.byteCount)) r
    .ok (.ok g)

/-- ENCODE (40_codec.md R90). -/
def execEncode (r : Req) (s : State) : Host.Outcome State Fault Refusal :=
  s.finish (encodeResult s.cfg r)

/-! ## DECODE -/

/-- Step 1a: byte 1 when FC_CHECK is true and it is not FUNCTION_CODE. With FC_CHECK false byte 1 is not read
(40_codec.md R95, 30_encoding.md R72). -/
def wrongFunctionCode (cfg : Config) (f : List Byte) : Except Fault (Option Byte) :=
  if cfg.fcCheck then do
    let b ← memReadByte f 1
    .ok (if b = functionCode then none else some b)
  else .ok none

/-- Steps 4, 5 and 5a: parse, re-apply the range check, compare byteCount with 2 * numberOfPoints (40_codec.md R95). -/
def decodeFields (cfg : Config) (f : List Byte) (bc : Nat) : Except Fault Result := do
  let slave ← memReadByte f 0
  let start ← memReadHalf f 2
  let n ← memReadHalf f 4
  let data ← readLanes f 0 (bc / 2)
  match rangeCheck cfg n.toNat with
  | some e => .ok e
  | none =>
    if bc ≠ 2 * n.toNat then .ok (.raise .malformedFrame .byteCountMismatch (2 * n.toNat) bc)
    else .ok (.ok (reqser { slave := slave, start := start, data := data }))

/-- DECODE as a function of its operand and the configuration (40_codec.md R95). -/
def decodeResult (cfg : Config) (f : List Byte) : Except Fault Result :=
  if f.length < headerLen then .ok (.raise .malformedFrame .shortHeader headerLen f.length)
  else do
    match ← wrongFunctionCode cfg f with
    | some b => .ok (.raise .malformedFrame .functionCode functionCode.toNat b.toNat)
    | none => do
      let bc ← memReadByte f byteCountOffset
      if f.length < headerLen + bc.toNat then
        .ok (.raise .malformedFrame .shortData (headerLen + bc.toNat) f.length)
      else decodeFields cfg f bc.toNat

/-- DECODE (40_codec.md R95). -/
def execDecode (f : List Byte) (s : State) : Host.Outcome State Fault Refusal :=
  s.finish (decodeResult s.cfg f)

end Sys2Proof.Machine
end

