-- ==== Sys2Proof/Machine/Validator.lean ====
section
/-! DEFINITION. Machine/Validator.lean: VALIDATE (41_validator.md R111). -/

namespace Sys2Proof.Machine

/-- VALIDATE: writes every STATUS field and empties OUT; it does not use `raise` (41_validator.md R111,
60_exceptions.md R128). -/
def execValidate (r : Req) (rsp : Rsp) (s : State) : Host.Outcome State Fault Refusal :=
  .next (s.complete (validateStatus r rsp) [])

end Sys2Proof.Machine
end

