-- ==== Sys2Proof/Machine/Dispatch.lean ====
section
/-! DEFINITION. Machine/Dispatch.lean: one arm per command of the opcode map (30_encoding.md R70). -/

namespace Sys2Proof.Machine

def exec (i : Instr) (s : State) : Host.Outcome State Fault Refusal :=
  match i with
  | .construct slave start data => Sys2Proof.Machine.execConstruct slave start data s
  | .encode r => Sys2Proof.Machine.execEncode r s
  | .decode f => Sys2Proof.Machine.execDecode f s
  | .validate r rsp => Sys2Proof.Machine.execValidate r rsp s

end Sys2Proof.Machine
end

