-- ==== Sys2Proof/Machine/Port.lean ====
section
/-! DEFINITION. Machine/Port.lean: what each host event does to the block (10_state.md R22, R23; 30_encoding.md R69;
70_reset_and_hazards.md R150). -/

namespace Sys2Proof.Machine

/-- ILLEGAL_COMMAND for a packet that is no command (60_exceptions.md R125, R126). -/
def State.rejectPacket (e : PacketError) (s : State) : State :=
  match e with
  | .unknownCode c => s.raise .illegalCommand .unknownCode 0 c.toNat
  | .badLength expected received => s.raise .illegalCommand .badLength expected received

/-- A packet on the command port: its checks run before the operation's own (60_exceptions.md R130). -/
def issuePacket (p : List Byte) (s : State) : Host.Outcome State Fault Refusal :=
  match decodePacket p with
  | .ok i => exec i s
  | .error e => .next (s.rejectPacket e)

/-- One host event. -/
def issue (e : HostEvent) (s : State) : Host.Outcome State Fault Refusal :=
  match e with
  | .packet p => issuePacket p s
  | .command i => exec i s
  | .reset => .next s.resetBlock
  | .resetInside _ => .next s.resetBlock

/-- The next host event of the pending program; with none pending the block is idle (60_exceptions.md R142; log 2). -/
def takeEvent (s : State) : Host.Outcome State Fault Refusal :=
  match s.pending with
  | [] => .next s
  | e :: rest => issue e { s with pending := rest }

end Sys2Proof.Machine
end

