-- ==== Sys2Proof/Machine/Step.lean ====
section
/-! DEFINITION. Machine/Step.lean: one step is one host event, performed whole (10_state.md R23, 20_memory.md R48). -/

namespace Sys2Proof.Machine

/-- One step of the machine. -/
def step (s : State) : Host.Outcome State Fault Refusal := takeEvent s

/-- The packet whose bits are `w`, put first among the host's pending events, so that the next step issues it (log 1,
log 12). -/
def State.withFetchWord (s : State) (nbits w : Nat) : State :=
  { s with pending := .packet (tablePacket nbits w) :: s.pending }

end Sys2Proof.Machine
end

