-- ==== Sys2Proof/Machine/Run.lean ====
section
/-! DEFINITION. Machine/Run.lean: a run of a finite host program and what it makes observable
(70_reset_and_hazards.md R158). -/

namespace Sys2Proof.Machine

/-- What the host reads after a command (10_state.md R23). -/
structure Observation where
  status : Status
  out : List Byte
deriving DecidableEq, Repr

/-- The (STATUS, OUT) pair in the latches. -/
def State.observation (s : State) : Observation := { status := s.status, out := s.out }

/-- Whether an event is a command that completes, and so publishes a pair. A reset completes no command, and a command
overtaken by reset publishes nothing (70_reset_and_hazards.md R150). -/
def HostEvent.completes : HostEvent → Bool
  | .packet _ => true
  | .command _ => true
  | .reset => false
  | .resetInside _ => false

/-- Run the events in order from s: the pairs observed, one per command, and the final state, by `step`. A fault or a
refusal ends the run, with `none` for the final state. -/
def runEvents : List HostEvent → State → List Observation × Option State
  | [], s => ([], some { s with pending := [] })
  | e :: es, s =>
    match step { s with pending := e :: es } with
    | .next t =>
      let r := runEvents es t
      (if e.completes then t.observation :: r.1 else r.1, r.2)
    | .fault _ => ([], none)
    | .refused _ => ([], none)

end Sys2Proof.Machine
end

