-- ==== Sys2Proof/Machine/HostProgram.lean ====
section
/-! DEFINITION. Machine/HostProgram.lean: host programs in the mnemonic syntax of 30_encoding.md R73, with variables,
assembled into packets line by line. The variables are the host's, not the block's (10_state.md R37), so they stand
beside State, not in it (log 14). -/

namespace Sys2Proof.Machine

/-- The name of a host variable `$v`, as a number. -/
abbrev HostVar := Nat

/-- What a host variable holds (30_encoding.md R73). -/
inductive HostValue where
  | req (r : Req)
  | frame (f : List Byte)
deriving DecidableEq, Repr

/-- `<req> ::= $r | (slave=…, start=…, data=[…])` -/
inductive ReqArg where
  | var (v : HostVar)
  | lit (r : Req)
deriving DecidableEq, Repr

/-- `frame=<hex bytes> | $f` -/
inductive FrameArg where
  | var (v : HostVar)
  | lit (f : List Byte)
deriving DecidableEq, Repr

/-- One line of a host program. VALIDATE and a raw packet bind no variable. -/
inductive HostLine where
  | construct (bind : Option HostVar) (slave : Byte) (start : Word) (data : List Word)
  | encode (bind : Option HostVar) (r : ReqArg)
  | decode (bind : Option HostVar) (f : FrameArg)
  | validate (r : ReqArg) (rsp : Rsp)
  | raw (p : List Byte)
deriving DecidableEq, Repr

/-- Bound variables, the latest binding first. -/
abbrev HostEnv := List (HostVar × HostValue)

/-- Why a line has no packet (log 14). -/
inductive AssembleError where
  /-- an operand `$v` that is not bound -/
  | unbound (v : HostVar)
  /-- a frame where a request is wanted, or the reverse -/
  | wrongKind (v : HostVar)
  /-- over the port capacities of 00_scope.md R9 -/
  | tooLong
deriving DecidableEq, Repr

/-- The value bound to a variable. -/
def HostEnv.find : HostEnv → HostVar → Option HostValue
  | [], _ => none
  | (u, x) :: rest, v => if u = v then some x else HostEnv.find rest v

/-- The variable with no value. -/
def HostEnv.unbind : HostEnv → HostVar → HostEnv
  | [], _ => []
  | (u, x) :: rest, v => if u = v then HostEnv.unbind rest v else (u, x) :: HostEnv.unbind rest v

/-- The request an operand stands for. -/
def ReqArg.value (env : HostEnv) : ReqArg → Except AssembleError Req
  | .lit r => .ok r
  | .var v =>
    match env.find v with
    | some (.req r) => .ok r
    | some (.frame _) => .error (.wrongKind v)
    | none => .error (.unbound v)

/-- The frame an operand stands for. -/
def FrameArg.value (env : HostEnv) : FrameArg → Except AssembleError (List Byte)
  | .lit f => .ok f
  | .var v =>
    match env.find v with
    | some (.frame f) => .ok f
    | some (.req _) => .error (.wrongKind v)
    | none => .error (.unbound v)

/-- A command as a packet, if the port carries it (00_scope.md R9). -/
def packetOf (i : Instr) : Except AssembleError (List Byte) :=
  if i.wellFormed then .ok (encode i) else .error .tooLong

/-- The packet of a line, every variable replaced by its value (30_encoding.md R73). -/
def HostLine.assemble (env : HostEnv) : HostLine → Except AssembleError (List Byte)
  | .construct _ slave start data => packetOf (.construct slave start data)
  | .encode _ r => do
    let r ← r.value env
    packetOf (.encode r)
  | .decode _ f => do
    let f ← f.value env
    packetOf (.decode f)
  | .validate r rsp => do
    let r ← r.value env
    packetOf (.validate r rsp)
  | .raw p => .ok p

/-- The variable a line binds. -/
def HostLine.target : HostLine → Option HostVar
  | .construct b _ _ _ => b
  | .encode b _ => b
  | .decode b _ => b
  | .validate _ _ => none
  | .raw _ => none

/-- What OUT means to the line that produced it: a request parsed from REQSER, or a frame (30_encoding.md R73). -/
def HostLine.outValue (out : List Byte) : HostLine → Option HostValue
  | .construct _ _ _ _ => (parseReqser out).map .req
  | .encode _ _ => some (.frame out)
  | .decode _ _ => (parseReqser out).map .req
  | .validate _ _ => none
  | .raw _ => none

/-- Bind the line's variable to OUT when CODE = OK; a command whose CODE is not OK leaves it unbound
(30_encoding.md R73). -/
def HostLine.bindOut (l : HostLine) (s : State) (env : HostEnv) : HostEnv :=
  match l.target with
  | none => env
  | some v =>
    if s.status.code = .ok then
      match l.outValue s.out with
      | some x => (v, x) :: env.unbind v
      | none => env.unbind v
    else env.unbind v

/-- The host beside the block: its variables and what it has observed so far. -/
structure Session where
  block : State
  env : HostEnv
  observed : List Observation
deriving DecidableEq, Repr

/-- One line: assemble, issue the packet, read the latches, bind. -/
def Session.runLine (l : HostLine) (h : Session) :
    Except AssembleError (Host.Outcome Session Fault Refusal) := do
  let p ← l.assemble h.env
  match issue (.packet p) h.block with
  | .next s =>
    .ok (.next { block := s, env := l.bindOut s h.env, observed := h.observed ++ [s.observation] })
  | .fault e => .ok (.fault e)
  | .refused e => .ok (.refused e)

/-- A host program, line by line. -/
def Session.runLines : List HostLine → Session → Except AssembleError (Host.Outcome Session Fault Refusal)
  | [], h => .ok (.next h)
  | l :: ls, h => do
    match ← h.runLine l with
    | .next h' => Session.runLines ls h'
    | .fault e => .ok (.fault e)
    | .refused e => .ok (.refused e)

end Sys2Proof.Machine
end

