-- ==== Sys2Proof/Safety.lean ====
section
/-! DEFINITION. Safety.lean: what counts as a good state and a good transaction, in the terms statements use. -/

namespace Sys2Proof.Machine

/-! ## Vocabulary of the statements -/

/-- The byte at offset a of a frame, for offsets inside it (20_memory.md R40). -/
def byteAt (f : List Byte) (a : Nat) : Byte := f.getD a 0

/-- The 16-bit field at offset a, for offsets inside the frame: `f[a]*256 + f[a+1]` (30_encoding.md R63). -/
def halfAt (f : List Byte) (a : Nat) : Word := BitVec.ofNat 16 ((byteAt f a).toNat * 256 + (byteAt f (a + 1)).toNat)

/-- n register values of two bytes each from offset a on (30_encoding.md R63, R69). -/
def wordsAt (f : List Byte) (a n : Nat) : List Word := (List.range n).map fun i => halfAt f (a + 2 * i)

/-- The request frame of 30_encoding.md R60, row by row. -/
def wireFrame (r : Req) : List Byte :=
  [r.slave, 0x10, hiByte r.start, loByte r.start,
    hiByte (BitVec.ofNat 16 r.data.length), loByte (BitVec.ofNat 16 r.data.length),
    BitVec.ofNat 8 (2 * r.data.length)] ++ r.data.flatMap fun w => [hiByte w, loByte w]

/-- A STATUS in which every field but these four is 0 (60_exceptions.md R126: "every field not listed in a row is 0"). -/
def Status.plain (code : Code) (sub : Sub) (expA rcvA : Word) : Status :=
  { code := code, sub := sub, mmStart := false, mmCount := false, expA := expA, rcvA := rcvA, expB := 0, rcvB := 0 }

/-! ## Good states -/

/-- STATUS holds the values of a row of the table of 60_exceptions.md R126 under this configuration, or those of reset
(10_state.md R37). -/
def Status.isRow (cfg : Config) (st : Status) : Prop :=
  match st.code, st.sub with
  | .ok, .noSub =>
    st.mmStart = false ∧ st.mmCount = false ∧ st.expA = st.rcvA ∧ st.expB = st.rcvB
  | .outOfRange, .aboveMax =>
    st.mmStart = false ∧ st.mmCount = false ∧ st.expB = 0 ∧ st.rcvB = 0 ∧
      st.expA.toNat = cfg.maxRegisters.toNat
  | .outOfRange, .belowMin =>
    st.mmStart = false ∧ st.mmCount = false ∧ st.expB = 0 ∧ st.rcvB = 0 ∧ st.expA = 1 ∧ st.rcvA = 0
  | .malformedFrame, .shortHeader =>
    st.mmStart = false ∧ st.mmCount = false ∧ st.expB = 0 ∧ st.rcvB = 0 ∧ st.expA = 7 ∧ st.rcvA.toNat < 7
  | .malformedFrame, .functionCode =>
    st.mmStart = false ∧ st.mmCount = false ∧ st.expB = 0 ∧ st.rcvB = 0 ∧ cfg.fcCheck = true ∧
      st.expA = 0x10 ∧ st.rcvA ≠ 0x10 ∧ st.rcvA.toNat < 256
  | .malformedFrame, .shortData =>
    st.mmStart = false ∧ st.mmCount = false ∧ st.expB = 0 ∧ st.rcvB = 0 ∧
      7 ≤ st.rcvA.toNat ∧ st.rcvA.toNat < st.expA.toNat ∧ st.expA.toNat ≤ 262
  | .malformedFrame, .byteCountMismatch =>
    st.mmStart = false ∧ st.mmCount = false ∧ st.expB = 0 ∧ st.rcvB = 0 ∧
      st.expA ≠ st.rcvA ∧ 2 ≤ st.expA.toNat ∧ st.expA.toNat ≤ 2 * cfg.maxRegisters.toNat ∧
      st.expA.toNat % 2 = 0 ∧ st.rcvA.toNat < 256
  | .illegalCommand, .unknownCode =>
    st.mmStart = false ∧ st.mmCount = false ∧ st.expB = 0 ∧ st.rcvB = 0 ∧ st.expA = 0 ∧
      st.rcvA.toNat < 256 ∧ st.rcvA ≠ 1 ∧ st.rcvA ≠ 2 ∧ st.rcvA ≠ 3 ∧ st.rcvA ≠ 4
  | .illegalCommand, .badLength =>
    st.mmStart = false ∧ st.mmCount = false ∧ st.expB = 0 ∧ st.rcvB = 0
  | .unexpectedStartAddress, .noSub =>
    st.mmStart = true ∧ st.expA ≠ st.rcvA ∧ (st.mmCount = false → st.expB = st.rcvB)
  | .unexpectedNumberOfPoints, .noSub =>
    st.mmStart = false ∧ st.mmCount = true ∧ st.expA = st.rcvA
  | .noneYet, .noSub => st = Status.afterReset
  | _, _ => False

/-- The invariant of the block: the configuration is legal (70_reset_and_hazards.md R152), STATUS is a row of R126,
OUT is empty unless the last command succeeded (10_state.md R30), and OUT is no longer than the longest frame
(30_encoding.md R61). -/
structure State.Inv (s : State) : Prop where
  cfgLegal : s.cfg.legal
  statusRow : s.status.isRow s.cfg
  outEmpty : s.status.code ≠ .ok → s.out = []
  outShort : s.out.length ≤ 7 + 2 * s.cfg.maxRegisters.toNat

/-- One write transaction as the host carries it out: the request it encoded, the request it hands to VALIDATE, and the
response with the function code of the variant the dispatch layer resolved it to (which VALIDATE never sees,
41_validator.md R112). -/
structure Transaction where
  sent : Req
  validated : Req
  rsp : Rsp
  rspVariant : Byte
deriving DecidableEq, Repr

/-- The host's duties of 70_reset_and_hazards.md R153 and R154, premises no command checks (log 20). -/
def Transaction.duties (t : Transaction) : Prop := t.validated = t.sent ∧ t.rspVariant = functionCode

end Sys2Proof.Machine
end

