-- ==== Sys2Proof/Certificates/Slice0/Obligations.lean ====
section
/-! DEFINITION. Certificates/Slice0/Obligations.lean: the statements, from the numbered rules of spec/. -/

open Sys2Proof Sys2Proof.Machine

/-! ## Encoding -/

/-- 30_encoding.md R64 to R69: the packet of a command the port can carry decodes to that command, every operand at
every value. -/
def Obligations.EncodedCommandDecodesBack : Prop :=
  ∀ i : Instr, i.wellFormed = true → decodePacket (encode i) = .ok i

/-- 30_encoding.md R64 to R69: a packet that decodes is the encoding of its command, and of no other, so no byte of a
packet is dropped. -/
def Obligations.DecodedPacketIsItsEncoding : Prop :=
  ∀ (p : List Byte) (i : Instr), decodePacket p = .ok i → i.wellFormed = true ∧ encode i = p

/-- 30_encoding.md R69: which command each packet carries, with every field at the offsets the rule gives. -/
def Obligations.PacketDecoderReadsFields : Prop :=
  ∀ (a s1 s0 l : Byte) (rest : List Byte),
    (rest.length = 2 * l.toNat →
      decodePacket (0x01 :: a :: s1 :: s0 :: l :: rest) =
          .ok (.construct a (beWord s1 s0) (wordsAt rest 0 l.toNat)) ∧
      decodePacket (0x02 :: a :: s1 :: s0 :: l :: rest) =
          .ok (.encode { slave := a, start := beWord s1 s0, data := wordsAt rest 0 l.toNat })) ∧
    (rest.length = s1.toNat + 256 * a.toNat → decodePacket (0x03 :: a :: s1 :: rest) = .ok (.decode rest)) ∧
    (rest.length = 2 * l.toNat + 4 →
      decodePacket (0x04 :: a :: s1 :: s0 :: l :: rest) =
          .ok (.validate { slave := a, start := beWord s1 s0, data := wordsAt rest 0 l.toNat }
            { start := halfAt rest (2 * l.toNat), count := halfAt rest (2 * l.toNat + 2) }))

/-- 30_encoding.md R69: the verdict on every packet that is no command: the empty packet first, then the code, then the
length, with the expected and the received length. -/
def Obligations.PacketDecoderRejects : Prop :=
  decodePacket [] = .error (.badLength 1 0) ∧
  (∀ (c : Byte) (ops : List Byte), c ≠ 1 → c ≠ 2 → c ≠ 3 → c ≠ 4 →
    decodePacket (c :: ops) = .error (.unknownCode c)) ∧
  (∀ (c : Byte) (ops : List Byte), c = 1 ∨ c = 2 ∨ c = 4 → 1 + ops.length < 5 →
    decodePacket (c :: ops) = .error (.badLength 5 (1 + ops.length))) ∧
  (∀ (c : Byte) (ops : List Byte) (need : Nat), c = 1 ∨ c = 2 ∨ c = 4 → 5 ≤ 1 + ops.length →
    need = (if c = 4 then 9 + 2 * (byteAt ops 3).toNat else 5 + 2 * (byteAt ops 3).toNat) →
    1 + ops.length ≠ need → decodePacket (c :: ops) = .error (.badLength need (1 + ops.length))) ∧
  (∀ ops : List Byte, 1 + ops.length < 3 → decodePacket (3 :: ops) = .error (.badLength 3 (1 + ops.length))) ∧
  (∀ ops : List Byte, 3 ≤ 1 + ops.length → 1 + ops.length ≠ 3 + (halfAt ops 0).toNat →
    decodePacket (3 :: ops) = .error (.badLength (3 + (halfAt ops 0).toNat) (1 + ops.length)))

/-- One packet of each command, written out from 30_encoding.md R65 to R68 (vectors C1, E3, D1, V7 of
95_test_vectors.md), decodes to its command. -/
def Obligations.SamplePacketsDecode : Prop :=
  decodePacket [0x01, 0x11, 0x00, 0x01, 0x02, 0x00, 0x0A, 0x01, 0x02] =
      .ok (.construct 0x11 0x0001 [0x000A, 0x0102]) ∧
  decodePacket [0x02, 0xF7, 0xFF, 0xFF, 0x03, 0xFF, 0xFF, 0x00, 0x00, 0x12, 0x34] =
      .ok (.encode { slave := 0xF7, start := 0xFFFF, data := [0xFFFF, 0x0000, 0x1234] }) ∧
  decodePacket [0x03, 0x00, 0x0B, 0x11, 0x10, 0x00, 0x01, 0x00, 0x02, 0x04, 0x00, 0x0A, 0x01, 0x02] =
      .ok (.decode [0x11, 0x10, 0x00, 0x01, 0x00, 0x02, 0x04, 0x00, 0x0A, 0x01, 0x02]) ∧
  decodePacket [0x04, 0x11, 0x00, 0x01, 0x02, 0x00, 0x0A, 0x01, 0x02, 0x00, 0x01, 0x01, 0x02] =
      .ok (.validate { slave := 0x11, start := 0x0001, data := [0x000A, 0x0102] }
        { start := 0x0001, count := 0x0102 })

/-- REQSER read back: what the host parses from the OUT of CONSTRUCT or DECODE is the request (30_encoding.md R64,
R73). -/
def Obligations.ReqserParsesBack : Prop :=
  (∀ r : Req, r.data.length ≤ 255 → parseReqser (reqser r) = some r) ∧
  (∀ (p : List Byte) (r : Req), parseReqser p = some r → p = reqser r)

/-! ## The step -/

/-- A step on a packet that decodes runs the decoded command on the state with that packet taken off the pending
program (10_state.md R22, R23; log 1). -/
def Obligations.StepRunsDecodedPacket : Prop :=
  ∀ (s : State) (p : List Byte) (rest : List HostEvent) (i : Instr),
    s.pending = .packet p :: rest → decodePacket p = .ok i → step s = exec i { s with pending := rest }

/-- A step on a typed command runs it (00_scope.md R13), and a step with nothing pending leaves the block idle, as it is
(60_exceptions.md R142; the model's choice of log 2). -/
def Obligations.StepRunsTypedCommandOrIdles : Prop :=
  (∀ (s : State) (rest : List HostEvent) (i : Instr),
    s.pending = .command i :: rest → step s = exec i { s with pending := rest }) ∧
  (∀ s : State, s.pending = [] → step s = .next s)

/-- A packet with an illegal command code raises ILLEGAL_COMMAND / UNKNOWN_CODE: RCV_A is the code, every other context
field 0, OUT empty, nothing else changed (30_encoding.md R71). -/
def Obligations.UnknownCodeIsIllegal : Prop :=
  ∀ (s : State) (c : Byte) (p : List Byte) (rest : List HostEvent),
    s.pending = .packet (c :: p) :: rest → c = 0 ∨ 5 ≤ c.toNat →
    step s = .next { s with pending := rest, out := [],
                            status := .plain .illegalCommand .unknownCode 0 (c.setWidth 16) }

/-- A packet of the wrong length raises ILLEGAL_COMMAND / BAD_LENGTH with the expected and the received length modulo
2^16 (10_state.md R29), whatever its request would have met (60_exceptions.md R125, R130). -/
def Obligations.BadLengthIsIllegal : Prop :=
  ∀ (s : State) (p : List Byte) (rest : List HostEvent) (expected received : Nat),
    s.pending = .packet p :: rest → decodePacket p = .error (.badLength expected received) →
    received = p.length ∧ expected ≠ received ∧
    step s = .next { s with pending := rest, out := [],
                            status := .plain .illegalCommand .badLength
                              (BitVec.ofNat 16 expected) (BitVec.ofNat 16 p.length) }

/-- Reset (70_reset_and_hazards.md R150): between commands it sets the latches to their reset values and leaves the
configuration as it was; a command it overtakes publishes nothing, so the step is that of the reset alone (log 9). -/
def Obligations.ResetRestoresLatches : Prop :=
  (∀ (s : State) (rest : List HostEvent), s.pending = .reset :: rest →
    step s = .next { s with pending := rest, out := [],
                            status := { code := .noneYet, sub := .noSub, mmStart := false, mmCount := false,
                                        expA := 0, rcvA := 0, expB := 0, rcvB := 0 } }) ∧
  (∀ (s : State) (p : List Byte) (rest : List HostEvent),
    step { s with pending := .resetInside p :: rest } = step { s with pending := .reset :: rest })

/-- The reset values of 10_state.md R37, with the default configuration of 00_scope.md R7 and R8 (log 3), as the host
reads them. -/
def Obligations.ResetValues : Prop :=
  State.reset.status.code = .noneYet ∧ State.reset.status.sub = .noSub ∧
  State.reset.status.mmStart = false ∧ State.reset.status.mmCount = false ∧
  State.reset.status.expA = 0 ∧ State.reset.status.rcvA = 0 ∧
  State.reset.status.expB = 0 ∧ State.reset.status.rcvB = 0 ∧
  State.reset.out = [] ∧ State.reset.cfg.maxRegisters = 123 ∧ State.reset.cfg.fcCheck = false ∧
  State.reset.hostRead .status0 = .ok (.word 0x0000000F) ∧ State.reset.hostRead .status1 = .ok (.word 0) ∧
  State.reset.hostRead .status2 = .ok (.word 0) ∧ State.reset.hostRead .functionCode = .ok (.byte 0x10)

/-! ## CONSTRUCT -/

/-- CONSTRUCT (40_codec.md R85): the packet 01 ‖ REQSER; success with REQSER in OUT, or OUT_OF_RANGE with the context of R126 and an empty OUT;
in every case nothing but the latches changes. -/
def Obligations.ConstructBuildsOrRejects : Prop :=
  ∀ (slave : Byte) (start : Word) (data : List Word) (s : State),
    encode (.construct slave start data) =
      0x01 :: reqser { slave := slave, start := start, data := data } ∧
    (1 ≤ data.length → data.length ≤ s.cfg.maxRegisters.toNat →
      exec (.construct slave start data) s =
        .next { s with status := .plain .ok .noSub 0 0,
                       out := [slave, hiByte start, loByte start, BitVec.ofNat 8 data.length] ++
                         data.flatMap fun w => [hiByte w, loByte w] }) ∧
    (s.cfg.maxRegisters.toNat < data.length →
      exec (.construct slave start data) s =
        .next { s with status := .plain .outOfRange .aboveMax (s.cfg.maxRegisters.setWidth 16)
                         (BitVec.ofNat 16 data.length), out := [] }) ∧
    (data.length = 0 →
      exec (.construct slave start data) s =
        .next { s with status := .plain .outOfRange .belowMin 1 0, out := [] })

/-! ## ENCODE -/

/-- ENCODE (40_codec.md R90): the packet 02 ‖ REQSER; a request satisfying WF gives success with the frame of
30_encoding.md R60 in OUT, one outside the range OUT_OF_RANGE and no byte; nothing but the latches changes. -/
def Obligations.EncodeSerializesOrRejects : Prop :=
  ∀ (r : Req) (s : State),
    encode (.encode r) = 0x02 :: reqser r ∧
    (1 ≤ r.data.length → r.data.length ≤ s.cfg.maxRegisters.toNat →
      exec (.encode r) s = .next { s with status := .plain .ok .noSub 0 0, out := wireFrame r }) ∧
    (s.cfg.maxRegisters.toNat < r.data.length →
      exec (.encode r) s =
        .next { s with status := .plain .outOfRange .aboveMax (s.cfg.maxRegisters.setWidth 16)
                         (BitVec.ofNat 16 r.data.length), out := [] }) ∧
    (r.data.length = 0 →
      exec (.encode r) s = .next { s with status := .plain .outOfRange .belowMin 1 0, out := [] })

/-- Lane i of the register data stands at bytes 7 + 2i and 8 + 2i of the frame in OUT, most significant byte first, and
the frame ends with the last lane (40_codec.md R82). -/
def Obligations.EncodePacksEveryLane : Prop :=
  ∀ (r : Req) (s t : State), r.WF s.cfg → exec (.encode r) s = .next t →
    t.out.length = 7 + 2 * r.data.length ∧
    ∀ (i : Nat) (h : i < r.data.length),
      t.out[7 + 2 * i]? = some (r.data[i].extractLsb' 8 8) ∧
      t.out[8 + 2 * i]? = some (r.data[i].extractLsb' 0 8)

/-- ENCODE writes every offset of its output frame: whatever stood in the fresh frame, the result is the same
(20_memory.md R41; log 6). -/
def Obligations.FreshFrameContentUnseen : Prop :=
  ∀ (r : Req) (g : List Byte), g.length = 7 + 2 * r.data.length → encodeInto g r = .ok (wireFrame r)

/-- Derived-field consistency (40_codec.md R98): byteCount = 2 * numberOfPoints in the frame, and its length is
7 + byteCount. -/
def Obligations.EncodedByteCountConsistent : Prop :=
  ∀ (r : Req) (s t : State), s.cfg.legal → exec (.encode r) s = .next t → t.status.code = .ok →
    (byteAt t.out 6).toNat = 2 * ((byteAt t.out 4).toNat * 256 + (byteAt t.out 5).toNat) ∧
    t.out.length = 7 + (byteAt t.out 6).toNat

/-- An encoded frame has 9 to 7 + 2 * MAX_REGISTERS bytes, at most 261 (30_encoding.md R61). -/
def Obligations.EncodedFrameLength : Prop :=
  ∀ (r : Req) (s t : State), s.cfg.legal → exec (.encode r) s = .next t → t.status.code = .ok →
    t.out.length = 7 + 2 * r.data.length ∧ 9 ≤ t.out.length ∧
    t.out.length ≤ 7 + 2 * s.cfg.maxRegisters.toNat ∧ t.out.length ≤ 261

/-- CONSTRUCT and ENCODE accept the same operands and report the same error (40_codec.md R100). -/
def Obligations.ConstructAndEncodeAgree : Prop :=
  ∀ (slave : Byte) (start : Word) (data : List Word) (s : State),
    ∃ t u, exec (.construct slave start data) s = .next t ∧
      exec (.encode { slave := slave, start := start, data := data }) s = .next u ∧
      (t.status.code = .ok ↔ u.status.code = .ok) ∧
      (t.status.code ≠ .ok → t.status = u.status)

/-- The output of ENCODE does not depend on FC_CHECK (40_codec.md R90). -/
def Obligations.EncodeIgnoresFcCheck : Prop :=
  ∀ (r : Req) (s : State) (b : Bool),
    ∃ t u, exec (.encode r) s = .next t ∧
      exec (.encode r) { s with cfg := { s.cfg with fcCheck := b } } = .next u ∧
      t.status = u.status ∧ t.out = u.out

/-! ## DECODE -/

/-- DECODE (40_codec.md R95): the packet 03 ‖ M ‖ f; the first rule the frame breaks is reported, in the order of
60_exceptions.md R131, with the context of R126 and an empty OUT; a frame that breaks none gives success with the
request of 30_encoding.md R63 in OUT; nothing but the latches changes. -/
def Obligations.DecodeParsesOrReportsFirstBrokenRule : Prop :=
  ∀ (f : List Byte) (s : State),
    (f.length ≤ 65535 → ∃ m1 m0 : Byte,
      m1.toNat * 256 + m0.toNat = f.length ∧ encode (.decode f) = 0x03 :: m1 :: m0 :: f) ∧
    exec (.decode f) s =
      if f.length < 7 then
        .next { s with out := [], status := .plain .malformedFrame .shortHeader 7 (BitVec.ofNat 16 f.length) }
      else if s.cfg.fcCheck = true ∧ byteAt f 1 ≠ 0x10 then
        .next { s with out := [], status := .plain .malformedFrame .functionCode 0x10 ((byteAt f 1).setWidth 16) }
      else if f.length < 7 + (byteAt f 6).toNat then
        .next { s with out := [], status := .plain .malformedFrame .shortData
                        (BitVec.ofNat 16 (7 + (byteAt f 6).toNat)) (BitVec.ofNat 16 f.length) }
      else if s.cfg.maxRegisters.toNat < (halfAt f 4).toNat then
        .next { s with out := [], status := .plain .outOfRange .aboveMax
                        (s.cfg.maxRegisters.setWidth 16) (halfAt f 4) }
      else if halfAt f 4 = 0 then
        .next { s with out := [], status := .plain .outOfRange .belowMin 1 0 }
      else if (byteAt f 6).toNat ≠ 2 * (halfAt f 4).toNat then
        .next { s with out := [], status := .plain .malformedFrame .byteCountMismatch
                        (BitVec.ofNat 16 (2 * (halfAt f 4).toNat)) ((byteAt f 6).setWidth 16) }
      else
        .next { s with out := reqser { slave := byteAt f 0, start := halfAt f 2,
                                       data := wordsAt f 7 (halfAt f 4).toNat }
                       status := .plain .ok .noSub 0 0 }

/-- Every MemRead of DECODE stays within the frame: DECODE answers a next state on every frame, under every
configuration (40_codec.md R95). -/
def Obligations.DecodeStaysInsideFrame : Prop :=
  ∀ (f : List Byte) (s : State), ∃ t, exec (.decode f) s = .next t

/-- Bytes after offset 7 + byteCount - 1 are not read: an accepted frame followed by any bytes gives the same next state
(20_memory.md R50). -/
def Obligations.DecodeIgnoresTrailingBytes : Prop :=
  ∀ (f extra : List Byte) (s t : State), exec (.decode f) s = .next t → t.status.code = .ok →
    exec (.decode (f ++ extra)) s = .next t

/-- With FC_CHECK = false the function-code byte has no effect (30_encoding.md R72). -/
def Obligations.DecodeIgnoresFunctionCodeByte : Prop :=
  ∀ (f : List Byte) (b : Byte) (s : State), s.cfg.fcCheck = false →
    exec (.decode (f.set 1 b)) s = exec (.decode f) s

/-- What DECODE accepts is a valid request whose data has the wire's numberOfPoints (40_codec.md R95, 10_state.md
R24). -/
def Obligations.DecodedRequestIsValid : Prop :=
  ∀ (f : List Byte) (s t : State), exec (.decode f) s = .next t → t.status.code = .ok →
    ∃ r : Req, t.out = reqser r ∧ r.WF s.cfg ∧ r.data.length = (halfAt f 4).toNat

/-! ## Laws of the codec -/

/-- Round trip (40_codec.md R97): ENCODE of a valid request answers a frame, and DECODE of that frame, in any state with
this configuration, answers the request. -/
def Obligations.DecodeOfEncodeIsTheRequest : Prop :=
  ∀ (r : Req) (s s' : State), s.cfg.legal → s'.cfg = s.cfg → r.WF s.cfg →
    ∃ t u, exec (.encode r) s = .next t ∧ t.status.code = .ok ∧
      exec (.decode t.out) s' = .next u ∧ u.status.code = .ok ∧ u.out = reqser r ∧ parseReqser u.out = some r

/-- Decode then encode (40_codec.md R99): ENCODE of the decoded request answers the first 7 + byteCount bytes of the
frame, byte 1 becoming 0x10; with FC_CHECK = true exactly that prefix. -/
def Obligations.EncodeOfDecodeIsTheFrame : Prop :=
  ∀ (f : List Byte) (r : Req) (s s' t : State), s.cfg.legal → s'.cfg = s.cfg →
    exec (.decode f) s = .next t → t.status.code = .ok → t.out = reqser r →
    ∃ u, exec (.encode r) s' = .next u ∧ u.status.code = .ok ∧
      u.out = byteAt f 0 :: 0x10 :: (f.drop 2).take (5 + (byteAt f 6).toNat) ∧
      (s.cfg.fcCheck = true → u.out = f.take (7 + (byteAt f 6).toNat))

/-! ## VALIDATE -/

/-- VALIDATE (41_validator.md R111): the packet 04 ‖ REQSER ‖ start ‖ count; both checks are flagged, both context pairs written, the first failing check names
the code, OUT is empty, and nothing but the latches changes. Counts are compared as naturals. -/
def Obligations.ValidateComparesBothFields : Prop :=
  ∀ (r : Req) (rsp : Rsp) (s : State),
    encode (.validate r rsp) = 0x04 :: (reqser r ++
      [hiByte rsp.start, loByte rsp.start, hiByte rsp.count, loByte rsp.count]) ∧
    exec (.validate r rsp) s =
      .next { s with
        out := []
        status :=
          { code := if r.start ≠ rsp.start then .unexpectedStartAddress
                    else if r.data.length ≠ rsp.count.toNat then .unexpectedNumberOfPoints
                    else .ok
            sub := .noSub
            mmStart := r.start ≠ rsp.start
            mmCount := r.data.length ≠ rsp.count.toNat
            expA := r.start
            rcvA := rsp.start
            expB := BitVec.ofNat 16 r.data.length
            rcvB := rsp.count } }

/-- The laws of the validator (41_validator.md R114): agreement, the two mismatches with both values, completeness. -/
def Obligations.ValidatorLaws : Prop :=
  ∀ (r : Req) (rsp : Rsp) (s : State),
    ∃ t, exec (.validate r rsp) s = .next t ∧
      (rsp.start = r.start → rsp.count.toNat = r.data.length → t.status.code = .ok) ∧
      (rsp.start ≠ r.start → rsp.count.toNat = r.data.length →
        t.status.code = .unexpectedStartAddress ∧ t.status.mmStart = true ∧ t.status.mmCount = false ∧
        t.status.expA = r.start ∧ t.status.rcvA = rsp.start) ∧
      (rsp.start = r.start → rsp.count.toNat ≠ r.data.length →
        t.status.code = .unexpectedNumberOfPoints ∧ t.status.mmStart = false ∧ t.status.mmCount = true ∧
        t.status.expB = BitVec.ofNat 16 r.data.length ∧ t.status.rcvB = rsp.count) ∧
      (t.status.code = .ok ↔ t.status.mmStart = false ∧ t.status.mmCount = false)

/-- VALIDATE compares no other field and reads no configuration: requests with the same start address and the same
number of values get the same answer, whatever their slave, values, and the block's configuration and latches
(41_validator.md R112, R113). -/
def Obligations.ValidateReadsNothingElse : Prop :=
  ∀ (r r' : Req) (rsp : Rsp) (s s' : State), r.start = r'.start → r.data.length = r'.data.length →
    ∃ t t', exec (.validate r rsp) s = .next t ∧ exec (.validate r' rsp) s' = .next t' ∧
      t.status = t'.status ∧ t.out = t'.out

/-- A transaction in which the host keeps its duties of 70_reset_and_hazards.md R153 and R154: when ENCODE and VALIDATE
both succeed, the response's variant, start address and count are those in the frame that was sent. -/
def Obligations.AcceptedResponseAnswersSentFrame : Prop :=
  ∀ (x : Transaction) (s s' t u : State), x.duties → s.cfg.legal →
    exec (.encode x.sent) s = .next t → t.status.code = .ok →
    exec (.validate x.validated x.rsp) s' = .next u → u.status.code = .ok →
    x.rspVariant = byteAt t.out 1 ∧ x.rsp.start = halfAt t.out 2 ∧ x.rsp.count = halfAt t.out 4

/-! ## Whole-machine rules -/

/-- No operation reads state left by an earlier command (10_state.md R20): under one configuration a command answers the
same STATUS and OUT from any two states. -/
def Obligations.CommandsReadNoState : Prop :=
  ∀ (i : Instr) (s s' : State), s.cfg = s'.cfg →
    ∃ t t', exec i s = .next t ∧ exec i s' = .next t' ∧ t.status = t'.status ∧ t.out = t'.out

/-- The frame of all four commands: each answers a next state in which the configuration and the host's pending program
are as they were (60_exceptions.md R128, 10_state.md R25, R32). STATUS and OUT are the whole of what a command
writes. -/
def Obligations.CommandsChangeOnlyTheLatches : Prop :=
  ∀ (i : Instr) (s : State), ∃ t, exec i s = .next t ∧ t.cfg = s.cfg ∧ t.pending = s.pending

/-- The block never locks up: every step answers a next state, in every state (60_exceptions.md R134,
70_reset_and_hazards.md R157). -/
def Obligations.EveryStepAnswers : Prop :=
  ∀ s : State, ∃ t, step s = .next t ∧ t.cfg = s.cfg ∧ t.pending = s.pending.tail

/-- An error of CONSTRUCT, ENCODE or DECODE leaves OUT empty and every STATUS field but CODE, SUB, EXP_A and RCV_A at 0
(60_exceptions.md R128). -/
def Obligations.RaisedErrorClearsTheRest : Prop :=
  ∀ (i : Instr) (s t : State), (∀ r rsp, i ≠ .validate r rsp) → exec i s = .next t → t.status.code ≠ .ok →
    t.out = [] ∧ t.status.expB = 0 ∧ t.status.rcvB = 0 ∧ t.status.mmStart = false ∧ t.status.mmCount = false ∧
    t.cfg = s.cfg ∧ t.pending = s.pending

/-- Which command can report which error (60_exceptions.md R121 to R125): MALFORMED_FRAME only DECODE, the two protocol
mismatches only VALIDATE, OUT_OF_RANGE never VALIDATE, ILLEGAL_COMMAND no typed command; and no command leaves
NONE. -/
def Obligations.ErrorsComeFromTheirCommands : Prop :=
  ∀ (i : Instr) (s t : State), exec i s = .next t →
    (t.status.code = .malformedFrame → ∃ f, i = .decode f) ∧
    (t.status.code = .unexpectedStartAddress ∨ t.status.code = .unexpectedNumberOfPoints →
      ∃ r rsp, i = .validate r rsp) ∧
    (t.status.code = .outOfRange → ∀ r rsp, i ≠ .validate r rsp) ∧
    t.status.code ≠ .illegalCommand ∧ t.status.code ≠ .noneYet

/-- Re-issuing a command with the same operands gives the same result, and changes nothing more (60_exceptions.md R135,
20_memory.md R49). -/
def Obligations.ReissuedCommandRepeats : Prop :=
  ∀ (i : Instr) (s t : State), exec i s = .next t → exec i t = .next t

/-- The invariant of the block is kept by every step: legal configuration, STATUS a row of 60_exceptions.md R126, OUT
empty unless the command succeeded, OUT no longer than the longest frame. -/
def Obligations.StepKeepsInvariant : Prop :=
  ∀ s t : State, s.Inv → step s = .next t → t.Inv

/-- The machine right after reset meets the invariant. -/
def Obligations.ResetMeetsInvariant : Prop := State.reset.Inv

/-- Each command's observed STATUS and OUT are those it would give as the first command after reset, whatever the
commands and resets before and after it, and every command of a run is observed once, in issue order (20_memory.md R52,
70_reset_and_hazards.md R151, R158). That the host's events stand in pending is the model's choice (log 1). -/
def Obligations.RunObservesEachCommandAlone : Prop :=
  ∀ (es : List HostEvent) (s : State),
    (∃ t, (runEvents es s).2 = some t ∧ t.cfg = s.cfg ∧ t.pending = []) ∧
    List.Forall₂
      (fun e o => ∃ u, issue e { State.reset with cfg := s.cfg } = .next u ∧ u.observation = o)
      (es.filter HostEvent.completes) (runEvents es s).1

/-! ## STATUS and the registers -/

/-- The packed view (10_state.md R31): every field at its bits, the reserved bits 0. -/
def Obligations.PackedStatusLayout : Prop :=
  ∀ st : Status,
    st.word0.extractLsb' 0 4 = st.code.bits ∧ st.word0.extractLsb' 4 4 = st.sub.bits ∧
    st.word0.getLsbD 8 = st.mmStart ∧ st.word0.getLsbD 9 = st.mmCount ∧ st.word0.extractLsb' 10 22 = 0 ∧
    st.word1.extractLsb' 0 16 = st.expA ∧ st.word1.extractLsb' 16 16 = st.rcvA ∧
    st.word2.extractLsb' 0 16 = st.expB ∧ st.word2.extractLsb' 16 16 = st.rcvB

/-- The packed words read back give the STATUS they were made from, for every STATUS whose SUB is listed under its CODE
(10_state.md R27, R31). -/
def Obligations.PackedStatusReadsBack : Prop :=
  ∀ st : Status, st.code.listed st.sub = true → Status.ofWords st.word0 st.word1 st.word2 = .ok st

/-- A packed STATUS with a reserved CODE (6 to 14), a SUB not listed under its CODE, or a reserved bit that is 1 faults
(93_implementation_defined.md I8). -/
def Obligations.ReservedStatusFaults : Prop :=
  ∀ w0 w1 w2 : BitVec 32,
    (6 ≤ (w0.extractLsb' 0 4).toNat → (w0.extractLsb' 0 4).toNat ≤ 14 →
      Status.ofWords w0 w1 w2 = .error .reservedStatus) ∧
    ((∀ (c : Code) (sb : Sub), c.listed sb = true → c.bits = w0.extractLsb' 0 4 → sb.bits ≠ w0.extractLsb' 4 4) →
      Status.ofWords w0 w1 w2 = .error .reservedStatus) ∧
    (w0.extractLsb' 10 22 ≠ 0 → Status.ofWords w0 w1 w2 = .error .reservedStatus)

/-- The numbers of CODE and SUB (10_state.md R26, R27). -/
def Obligations.CodeAndSubNumbers : Prop :=
  (Code.ok.bits = 0 ∧ Code.outOfRange.bits = 1 ∧ Code.malformedFrame.bits = 2 ∧
    Code.unexpectedStartAddress.bits = 3 ∧ Code.unexpectedNumberOfPoints.bits = 4 ∧
    Code.illegalCommand.bits = 5 ∧ Code.noneYet.bits = 15) ∧
  (Sub.noSub.bits = 0 ∧ Sub.aboveMax.bits = 1 ∧ Sub.belowMin.bits = 2 ∧ Sub.shortHeader.bits = 1 ∧
    Sub.functionCode.bits = 2 ∧ Sub.shortData.bits = 3 ∧ Sub.byteCountMismatch.bits = 4 ∧
    Sub.unknownCode.bits = 1 ∧ Sub.badLength.bits = 2)

/-- The host's reads (10_state.md R31 to R35): each register gives its value, FUNCTION_CODE 0x10 in every state, and
STATUS0 faults where CODE and SUB are not listed together. -/
def Obligations.HostReadsRegisters : Prop :=
  ∀ s : State,
    s.hostRead .functionCode = .ok (.byte 0x10) ∧ s.hostRead .maxRegisters = .ok (.byte s.cfg.maxRegisters) ∧
    s.hostRead .fcCheck = .ok (.bit s.cfg.fcCheck) ∧ s.hostRead .out = .ok (.bytes s.out) ∧
    s.hostRead .status1 = .ok (.word s.status.word1) ∧ s.hostRead .status2 = .ok (.word s.status.word2) ∧
    (s.status.code.listed s.status.sub = true → s.hostRead .status0 = .ok (.word s.status.word0)) ∧
    (s.status.code.listed s.status.sub = false → s.hostRead .status0 = .error .reservedStatus)

/-! ## The frame spaces and the range check -/

/-- MemRead (20_memory.md R42): big-endian inside the frame, a fault outside it. -/
def Obligations.MemReadIsBigEndianOrFaults : Prop :=
  ∀ (f : List Byte) (a : Nat),
    (∀ h : a < f.length, memReadByte f a = .ok f[a]) ∧
    (f.length < a + 1 → memReadByte f a = .error .frameReadOutside) ∧
    (∀ h : a + 1 < f.length,
      memReadHalf f a = .ok ((f[a]).setWidth 16 * 256 + (f[a + 1]).setWidth 16)) ∧
    (f.length < a + 2 → memReadHalf f a = .error .frameReadOutside)

/-- MemWrite (20_memory.md R43, R45): one byte at a; two bytes, v[15:8] at a and v[7:0] at a + 1, read back as v; every
other offset as it was. -/
def Obligations.MemWriteThenRead : Prop :=
  ∀ (g : List Byte) (a : Nat),
    (∀ b : Byte, a < g.length →
      ∃ g', memWriteByte g a b = .ok g' ∧ g'.length = g.length ∧ memReadByte g' a = .ok b ∧
        ∀ c, c ≠ a → g'[c]? = g[c]?) ∧
    (∀ v : Word, a + 2 ≤ g.length →
      ∃ g', memWriteHalf g a v = .ok g' ∧ g'.length = g.length ∧
        memReadByte g' a = .ok (v.extractLsb' 8 8) ∧ memReadByte g' (a + 1) = .ok (v.extractLsb' 0 8) ∧
        memReadHalf g' a = .ok v ∧ ∀ c, c ≠ a → c ≠ a + 1 → g'[c]? = g[c]?)

/-- RangeCheck, the pseudocode of 40_codec.md R80: the two errors with their context, and nothing for a count in range.
That CONSTRUCT, ENCODE and DECODE share it is said by their own statements. -/
def Obligations.RangeCheckVerdicts : Prop :=
  ∀ (cfg : Config) (n : Nat), cfg.legal →
    (cfg.maxRegisters.toNat < n →
      rangeCheck cfg n = some (.err .outOfRange .aboveMax cfg.maxRegisters.toNat n 0 0)) ∧
    (n = 0 → rangeCheck cfg n = some (.err .outOfRange .belowMin 1 0 0 0)) ∧
    (1 ≤ n → n ≤ cfg.maxRegisters.toNat → rangeCheck cfg n = none)

/-! ## Host programs -/

/-- A program line `$v := ENCODE $r` with r bound to a valid request: the line answers, observes CODE = OK, and binds v
to the frame (30_encoding.md R73; log 14). -/
def Obligations.EncodeLineBindsFrame : Prop :=
  ∀ (h : Session) (r : Req) (v w : HostVar), h.block.cfg.legal → r.WF h.block.cfg →
    h.env.find w = some (.req r) →
    ∃ h', h.runLine (.encode (some v) (.var w)) = .ok (.next h') ∧ h'.block.status.code = .ok ∧
      h'.env.find v = some (.frame (wireFrame r)) ∧
      h'.observed = h.observed ++ [h'.block.observation] ∧
      ∀ u, u ≠ v → h'.env.find u = h.env.find u

/-- A line whose command's CODE is not OK leaves its variable unbound, and no other variable changed (30_encoding.md
R73; that an earlier value of it goes too is the model's reading, log 14). -/
def Obligations.FailedLineLeavesVariableUnbound : Prop :=
  ∀ (h h' : Session) (l : HostLine) (v : HostVar), l.target = some v → h.runLine l = .ok (.next h') →
    h'.block.status.code ≠ .ok → h'.env.find v = none ∧ ∀ u, u ≠ v → h'.env.find u = h.env.find u
end

