-- ==== Sys2Proof/Laws/Bytes.lean ====
section
/-! SUPPORT. Laws/Bytes.lean: big-endian assembly and register data as bytes (20_memory.md R42 to R45, R57). -/

namespace Sys2Proof

theorem hiByte_toNat (w : Word) : (hiByte w).toNat = w.toNat / 256 := by
  have := w.isLt
  simp only [hiByte, BitVec.extractLsb'_toNat, Nat.shiftRight_eq_div_pow]
  omega

theorem loByte_toNat (w : Word) : (loByte w).toNat = w.toNat % 256 := by
  simp [loByte]

theorem beWord_toNat (hi lo : Byte) : (beWord hi lo).toNat = hi.toNat * 256 + lo.toNat := by
  have := hi.isLt
  have := lo.isLt
  simp only [beWord, BitVec.toNat_ofNat]
  omega

/-- Splitting a 16-bit field and assembling it again gives it back. -/
@[simp] theorem beWord_hiByte_loByte (w : Word) : beWord (hiByte w) (loByte w) = w := by
  apply BitVec.eq_of_toNat_eq
  rw [beWord_toNat, hiByte_toNat, loByte_toNat]
  omega

@[simp] theorem hiByte_beWord (hi lo : Byte) : hiByte (beWord hi lo) = hi := by
  apply BitVec.eq_of_toNat_eq
  have := lo.isLt
  rw [hiByte_toNat, beWord_toNat]
  omega

@[simp] theorem loByte_beWord (hi lo : Byte) : loByte (beWord hi lo) = lo := by
  apply BitVec.eq_of_toNat_eq
  have := lo.isLt
  rw [loByte_toNat, beWord_toNat]
  omega

@[simp] theorem dataBytes_nil : dataBytes [] = [] := rfl
@[simp] theorem dataBytes_cons (w : Word) (ws : List Word) :
    dataBytes (w :: ws) = hiByte w :: loByte w :: dataBytes ws := rfl

@[simp] theorem dataBytes_length (ws : List Word) : (dataBytes ws).length = 2 * ws.length := by
  induction ws with
  | nil => rfl
  | cons w ws ih => simp [ih]; omega

/-- Register data as the two bytes of each value, in order. -/
theorem dataBytes_eq_flatMap (ws : List Word) : dataBytes ws = ws.flatMap fun w => [hiByte w, loByte w] := by
  induction ws with
  | nil => rfl
  | cons w ws ih => simp [ih]

@[simp] theorem pairWords_dataBytes (ws : List Word) : pairWords (dataBytes ws) = ws := by
  induction ws with
  | nil => rfl
  | cons w ws ih => simp [pairWords, ih]

/-- An even number of bytes is the register data of half as many values, and of no other. -/
theorem dataBytes_pairWords (n : Nat) (bs : List Byte) (h : bs.length = 2 * n) :
    dataBytes (pairWords bs) = bs ∧ (pairWords bs).length = n := by
  induction n generalizing bs with
  | zero =>
    obtain rfl := List.length_eq_zero_iff.mp h
    exact ⟨rfl, rfl⟩
  | succ n ih =>
    match bs, h with
    | hi :: lo :: rest, h =>
      have := ih rest (by simpa [Nat.mul_add] using h)
      simp [pairWords, this]

theorem reqser_length (r : Req) : (reqser r).length = 4 + 2 * r.data.length := by
  simp [reqser]; omega

/-- The count byte of REQSER is exact up to the port capacity (00_scope.md R9). -/
theorem ofNat8_toNat (n : Nat) (h : n ≤ 255) : (BitVec.ofNat 8 n).toNat = n := by
  simp only [BitVec.toNat_ofNat]; omega

theorem ofNat16_toNat (n : Nat) (h : n ≤ 65535) : (BitVec.ofNat 16 n).toNat = n := by
  simp only [BitVec.toNat_ofNat]; omega

/-! ## Fields of a frame -/

namespace Machine

@[simp] theorem wordsAt_length (f : List Byte) (a n : Nat) : (wordsAt f a n).length = n := by simp [wordsAt]

/-- A 16-bit field is the assembly of its two bytes. -/
theorem halfAt_eq_beWord (f : List Byte) (a : Nat) : halfAt f a = beWord (byteAt f a) (byteAt f (a + 1)) := rfl

theorem byteAt_append (f x : List Byte) (a : Nat) (h : a < f.length) : byteAt (f ++ x) a = byteAt f a := by
  simp [byteAt, List.getElem?_append_left h]

theorem halfAt_append (f x : List Byte) (a : Nat) (h : a + 1 < f.length) : halfAt (f ++ x) a = halfAt f a := by
  simp only [halfAt, byteAt_append f x a (by omega), byteAt_append f x (a + 1) h]

/-- Register values inside a frame are not affected by bytes after it. -/
theorem wordsAt_append (f x : List Byte) (a n : Nat) (h : a + 2 * n ≤ f.length) :
    wordsAt (f ++ x) a n = wordsAt f a n := by
  refine List.map_congr_left fun k hk => ?_
  have := List.mem_range.mp hk
  exact halfAt_append _ _ _ (by omega)

theorem wordsAt_succ (f : List Byte) (a n : Nat) : wordsAt f a (n + 1) = halfAt f a :: wordsAt f (a + 2) n := by
  simp only [wordsAt, List.range_succ_eq_map, List.map_cons, List.map_map]
  refine congrArg₂ List.cons (by simp) (List.map_congr_left fun k _ => ?_)
  have : a + 2 * (k + 1) = a + 2 + 2 * k := by omega
  simp [Function.comp, this]

/-- The two bytes of value i stand at 2i and 2i + 1. -/
theorem dataBytes_getElem? (ws : List Word) (i : Nat) (h : i < ws.length) :
    (dataBytes ws)[2 * i]? = some (hiByte ws[i]) ∧ (dataBytes ws)[2 * i + 1]? = some (loByte ws[i]) := by
  induction ws generalizing i with
  | nil => simp at h
  | cons w ws ih =>
    cases i with
    | zero => simp
    | succ i =>
      have := ih i (by simpa using h)
      have e : 2 * (i + 1) = 2 * i + 1 + 1 := by omega
      rw [e]
      simpa using this

/-- Reading by offset and reading by pairs agree. -/
theorem pairWords_eq_wordsAt (bs : List Byte) (n : Nat) (h : 2 * n ≤ bs.length) :
    pairWords (bs.take (2 * n)) = wordsAt bs 0 n := by
  induction n generalizing bs with
  | zero => rfl
  | succ n ih =>
    match bs, h with
    | x :: y :: rest, h =>
      have e : 2 * (n + 1) = 2 * n + 1 + 1 := by omega
      have h' : 2 * n ≤ rest.length := by simp at h; omega
      rw [e, List.take_succ_cons, List.take_succ_cons]
      simp only [pairWords, ih rest h', wordsAt, List.range_succ_eq_map, List.map_cons, List.map_map]
      congr 1

/-- Register data after a header is read back in order. -/
theorem wordsAt_dataBytes (h : List Byte) (ws : List Word) :
    wordsAt (h ++ dataBytes ws) h.length ws.length = ws := by
  apply List.ext_getElem?
  intro i
  by_cases hi : i < ws.length
  · obtain ⟨g1, g2⟩ := dataBytes_getElem? ws i hi
    have e1 : byteAt (h ++ dataBytes ws) (h.length + 2 * i) = hiByte ws[i] := by
      rw [byteAt, List.getD, List.getElem?_append_right (by omega)]
      simp [g1]
    have e2 : byteAt (h ++ dataBytes ws) (h.length + 2 * i + 1) = loByte ws[i] := by
      rw [byteAt, List.getD, Nat.add_assoc, List.getElem?_append_right (by omega)]
      simp [g2]
    have := beWord_hiByte_loByte ws[i]
    simp [wordsAt, hi, halfAt, e1, e2]
    simpa [beWord] using this
  · simp [wordsAt, hi]

/-- Register values read from a frame, as bytes again, are the bytes of the frame. -/
theorem dataBytes_wordsAt (f : List Byte) (a n : Nat) (h : a + 2 * n ≤ f.length) :
    dataBytes (wordsAt f a n) = (f.drop a).take (2 * n) := by
  induction n generalizing a with
  | zero => simp [wordsAt]
  | succ n ih =>
    have hd : f.drop a = byteAt f a :: byteAt f (a + 1) :: f.drop (a + 2) := by
      have q1 : f.drop a = f[a] :: f.drop (a + 1) := List.drop_eq_getElem_cons (by omega)
      have q2 : f.drop (a + 1) = f[a + 1] :: f.drop (a + 2) := List.drop_eq_getElem_cons (by omega)
      have w1 : byteAt f a = f[a] := by simp [byteAt, show a < f.length by omega]
      have w2 : byteAt f (a + 1) = f[a + 1] := by simp [byteAt, show a + 1 < f.length by omega]
      rw [q1, q2, w1, w2]
    have e : 2 * (n + 1) = 2 * n + 1 + 1 := by omega
    rw [wordsAt_succ, dataBytes_cons, ih (a + 2) (by omega), hd, e, List.take_succ_cons, List.take_succ_cons,
      halfAt_eq_beWord, hiByte_beWord, loByte_beWord]

@[simp] theorem wireFrame_length (r : Req) : (wireFrame r).length = 7 + 2 * r.data.length := by
  simp only [wireFrame, ← dataBytes_eq_flatMap, List.length_append, dataBytes_length]; rfl

end Machine

/-- No two requests have one serialization. -/
theorem reqser_injective (r r' : Req) (h : reqser r = reqser r') : r = r' := by
  simp only [reqser, List.cons.injEq] at h
  obtain ⟨h1, h2, h3, _, h5⟩ := h
  have hs : r.start = r'.start := by rw [← beWord_hiByte_loByte r.start, h2, h3, beWord_hiByte_loByte]
  have hd : r.data = r'.data := by rw [← pairWords_dataBytes r.data, h5, pairWords_dataBytes]
  cases r; cases r'; simp_all

end Sys2Proof
end

