-- ==== Sys2Proof/Laws/Frame.lean ====
section
/-! SUPPORT. Laws/Frame.lean: everything the accesses to the two frame spaces can do (20_memory.md R40 to R43). -/

namespace Sys2Proof.Machine

theorem memReadByte_inside (f : List Byte) (a : Nat) (h : a < f.length) : memReadByte f a = .ok (byteAt f a) := by
  simp [memReadByte, byteAt, h]

theorem memReadByte_outside (f : List Byte) (a : Nat) (h : f.length ≤ a) :
    memReadByte f a = .error .frameReadOutside := by
  simp [memReadByte, h]

theorem memReadHalf_inside (f : List Byte) (a : Nat) (h : a + 1 < f.length) :
    memReadHalf f a = .ok (halfAt f a) := by
  unfold memReadHalf
  rw [memReadByte_inside f a (by omega), memReadByte_inside f (a + 1) h]
  rfl

theorem memReadHalf_outside (f : List Byte) (a : Nat) (h : f.length ≤ a + 1) :
    memReadHalf f a = .error .frameReadOutside := by
  unfold memReadHalf
  rw [memReadByte_outside f (a + 1) h]
  rcases Nat.lt_or_ge a f.length with ha | ha
  · rw [memReadByte_inside f a ha]; rfl
  · rw [memReadByte_outside f a ha]; rfl

/-- n lanes inside the frame are read in order. -/
theorem readLanes_inside (f : List Byte) (i n : Nat) (h : laneOffset (i + n) ≤ f.length) :
    readLanes f i n = .ok (wordsAt f (laneOffset i) n) := by
  induction n generalizing i with
  | zero => rfl
  | succ n ih =>
    have hread := memReadHalf_inside f (laneOffset i) (by simp [laneOffset, dataOffset] at *; omega)
    have hrest := ih (i + 1) (by rw [Nat.add_assoc, Nat.add_comm 1 n]; exact h)
    unfold readLanes
    rw [hread, hrest]
    show Except.ok _ = Except.ok _
    simp only [wordsAt, List.range_succ_eq_map, List.map_cons, List.map_map, Except.ok.injEq, List.cons.injEq]
    refine ⟨by simp, List.map_congr_left fun k _ => ?_⟩
    simp only [Function.comp, laneOffset]
    congr 1
    omega

theorem memWriteByte_inside (g : List Byte) (a : Nat) (v : Byte) (h : a < g.length) :
    memWriteByte g a v = .ok (g.set a v) := by
  simp [memWriteByte, h]

theorem memWriteByte_outside (g : List Byte) (a : Nat) (v : Byte) (h : g.length ≤ a) :
    memWriteByte g a v = .error .frameWriteOutside := by
  simp [memWriteByte]; omega

theorem memWriteHalf_inside (g : List Byte) (a : Nat) (v : Word) (h : a + 1 < g.length) :
    memWriteHalf g a v = .ok ((g.set a (hiByte v)).set (a + 1) (loByte v)) := by
  unfold memWriteHalf
  rw [memWriteByte_inside g a _ (by omega)]
  exact memWriteByte_inside _ _ _ (by simpa using h)

/-- A lane written over the first two bytes of what is left of the frame. -/
theorem memWriteHalf_append (done : List Byte) (x y : Byte) (rest : List Byte) (v : Word) :
    memWriteHalf (done ++ x :: y :: rest) done.length v = .ok (done ++ hiByte v :: loByte v :: rest) := by
  rw [memWriteHalf_inside _ _ _ (by simp)]
  simp

/-- Writing the lanes over a frame whose rest has room for exactly them leaves the bytes before, then the register
data: nothing of what stood there stays. -/
theorem writeLanes_append (ws : List Word) (i : Nat) (done rest : List Byte) (hd : done.length = laneOffset i)
    (hr : rest.length = 2 * ws.length) : writeLanes (done ++ rest) i ws = .ok (done ++ dataBytes ws) := by
  induction ws generalizing i done rest with
  | nil =>
    obtain rfl := List.length_eq_zero_iff.mp hr
    rfl
  | cons w ws ih =>
    match rest, hr with
    | x :: y :: rest, hr =>
      have hlane : (done ++ [hiByte w, loByte w]).length = laneOffset (i + 1) := by
        simp [hd, laneOffset]; omega
      have := ih (i + 1) (done ++ [hiByte w, loByte w]) rest hlane (by simpa [Nat.mul_add] using hr)
      unfold writeLanes
      rw [← hd, memWriteHalf_append]
      simpa [bind, Except.bind] using this

end Sys2Proof.Machine
end

