-- ==== Sys2Proof/Laws/State.lean ====
section
/-! SUPPORT. Laws/State.lean: what each update of State does to each field, true by rfl. -/

namespace Sys2Proof.Machine

@[simp] theorem State.complete_status (st : Status) (o : List Byte) (s : State) : (s.complete st o).status = st := rfl
@[simp] theorem State.complete_out (st : Status) (o : List Byte) (s : State) : (s.complete st o).out = o := rfl
@[simp] theorem State.complete_cfg (st : Status) (o : List Byte) (s : State) : (s.complete st o).cfg = s.cfg := rfl
@[simp] theorem State.complete_pending (st : Status) (o : List Byte) (s : State) :
    (s.complete st o).pending = s.pending := rfl

/-- The second completion is the one that stays: no latch remembers the first. -/
@[simp] theorem State.complete_complete (st st' : Status) (o o' : List Byte) (s : State) :
    (s.complete st o).complete st' o' = s.complete st' o' := rfl

@[simp] theorem State.deliver_cfg (res : Result) (s : State) : (s.deliver res).cfg = s.cfg := by
  cases res <;> rfl
@[simp] theorem State.deliver_pending (res : Result) (s : State) : (s.deliver res).pending = s.pending := by
  cases res <;> rfl

theorem State.deliver_ok (o : List Byte) (s : State) : s.deliver (.ok o) = s.complete Status.success o := rfl
theorem State.deliver_err (c : Code) (sb : Sub) (ea ra eb rb : Nat) (s : State) :
    s.deliver (.err c sb ea ra eb rb) = s.complete (Status.error c sb ea ra eb rb) [] := rfl
theorem State.deliver_raise (c : Code) (sb : Sub) (exp rcv : Nat) (s : State) :
    s.deliver (.raise c sb exp rcv) = s.complete (Status.error c sb exp rcv 0 0) [] := rfl

@[simp] theorem State.deliver_code (res : Result) (s : State) : (s.deliver res).status.code = res.code := by
  cases res <;> rfl

@[simp] theorem State.raise_status (c : Code) (sb : Sub) (exp rcv : Nat) (s : State) :
    (s.raise c sb exp rcv).status = Status.error c sb exp rcv 0 0 := rfl
@[simp] theorem State.raise_out (c : Code) (sb : Sub) (exp rcv : Nat) (s : State) :
    (s.raise c sb exp rcv).out = [] := rfl
@[simp] theorem State.raise_cfg (c : Code) (sb : Sub) (exp rcv : Nat) (s : State) :
    (s.raise c sb exp rcv).cfg = s.cfg := rfl
@[simp] theorem State.raise_pending (c : Code) (sb : Sub) (exp rcv : Nat) (s : State) :
    (s.raise c sb exp rcv).pending = s.pending := rfl

@[simp] theorem State.resetBlock_status (s : State) : s.resetBlock.status = Status.afterReset := rfl
@[simp] theorem State.resetBlock_out (s : State) : s.resetBlock.out = [] := rfl
@[simp] theorem State.resetBlock_cfg (s : State) : s.resetBlock.cfg = s.cfg := rfl
@[simp] theorem State.resetBlock_pending (s : State) : s.resetBlock.pending = s.pending := rfl

@[simp] theorem State.rejectPacket_cfg (e : PacketError) (s : State) : (s.rejectPacket e).cfg = s.cfg := by
  cases e <;> rfl
@[simp] theorem State.rejectPacket_pending (e : PacketError) (s : State) :
    (s.rejectPacket e).pending = s.pending := by
  cases e <;> rfl
@[simp] theorem State.rejectPacket_out (e : PacketError) (s : State) : (s.rejectPacket e).out = [] := by
  cases e <;> rfl
@[simp] theorem State.rejectPacket_code (e : PacketError) (s : State) :
    (s.rejectPacket e).status.code = .illegalCommand := by
  cases e <;> rfl

@[simp] theorem State.withFetchWord_status (s : State) (n w : Nat) : (s.withFetchWord n w).status = s.status := rfl
@[simp] theorem State.withFetchWord_out (s : State) (n w : Nat) : (s.withFetchWord n w).out = s.out := rfl
@[simp] theorem State.withFetchWord_cfg (s : State) (n w : Nat) : (s.withFetchWord n w).cfg = s.cfg := rfl
@[simp] theorem State.withFetchWord_pending (s : State) (n w : Nat) :
    (s.withFetchWord n w).pending = .packet (tablePacket n w) :: s.pending := rfl

/-- Completing with a computed result: it goes on exactly when the computation gave one, to the delivered state. -/
theorem State.finish_next_iff (res : Except Fault Result) (s t : State) :
    s.finish res = .next t ↔ ∃ r, res = .ok r ∧ t = s.deliver r := by
  cases res with
  | ok r => simp [State.finish, eq_comm]
  | error e => simp [State.finish]

/-- Delivering a result writes the two latches, with values that do not depend on the state. -/
theorem State.deliver_writes (res : Result) :
    ∃ st o, ∀ s : State, s.deliver res = { s with status := st, out := o } := by
  cases res with
  | ok o => exact ⟨Status.success, o, fun _ => rfl⟩
  | err c sb ea ra eb rb => exact ⟨Status.error c sb ea ra eb rb, [], fun _ => rfl⟩

theorem Status.success_eq_plain : Status.success = .plain .ok .noSub 0 0 := rfl

/-- An error with a natural-number context is the row with that context modulo 2^16. -/
theorem Status.error_eq_plain (c : Code) (sb : Sub) (exp rcv : Nat) :
    Status.error c sb exp rcv 0 0 = .plain c sb (BitVec.ofNat 16 exp) (BitVec.ofNat 16 rcv) := rfl

/-! ## Host variables -/

theorem HostEnv.find_unbind_self (env : HostEnv) (v : HostVar) : HostEnv.find (HostEnv.unbind env v) v = none := by
  induction env with
  | nil => rfl
  | cons p env ih =>
    obtain ⟨u, x⟩ := p
    simp only [HostEnv.unbind]
    split
    · exact ih
    · rename_i h; simp [HostEnv.find, h, ih]

theorem HostEnv.find_unbind_ne (env : HostEnv) (v u : HostVar) (h : u ≠ v) :
    HostEnv.find (HostEnv.unbind env v) u = HostEnv.find env u := by
  induction env with
  | nil => rfl
  | cons p env ih =>
    obtain ⟨w, x⟩ := p
    simp only [HostEnv.unbind]
    split
    · rename_i hw; subst hw; simp [HostEnv.find, Ne.symm h, ih]
    · simp only [HostEnv.find, ih]

/-! ## Numbers of CODE and SUB -/

theorem Code.ofBits_bits (c : Code) : Code.ofBits c.bits = some c := by cases c <;> rfl

theorem Sub.ofBits_bits (c : Code) (sb : Sub) (h : c.listed sb = true) : Sub.ofBits c sb.bits = some sb := by
  revert h; cases c <;> cases sb <;> decide

theorem Code.bits_ofBits (b : BitVec 4) (c : Code) (h : Code.ofBits b = some c) : c.bits = b := by
  revert b c; decide

theorem Sub.bits_ofBits (c : Code) (b : BitVec 4) (sb : Sub) (h : Sub.ofBits c b = some sb) :
    c.listed sb = true ∧ sb.bits = b := by
  revert b; cases c <;> cases sb <;> decide

end Sys2Proof.Machine
end

