-- ==== Sys2Proof/Laws/Codec.lean ====
section
/-! SUPPORT. Laws/Codec.lean: the range check and the steps of DECODE, each said once (40_codec.md R80, R95). -/

namespace Sys2Proof.Machine

theorem rangeCheck_passes (cfg : Config) (n : Nat) (h1 : 1 ≤ n) (h2 : n ≤ cfg.maxRegisters.toNat) :
    rangeCheck cfg n = none := by
  rw [rangeCheck, if_neg (by omega), if_neg (by omega)]

theorem rangeCheck_above (cfg : Config) (n : Nat) (h : cfg.maxRegisters.toNat < n) :
    rangeCheck cfg n = some (.raise .outOfRange .aboveMax cfg.maxRegisters.toNat n) := by
  simp [rangeCheck, h]

theorem rangeCheck_below (cfg : Config) : rangeCheck cfg 0 = some (.raise .outOfRange .belowMin 1 0) := by
  simp [rangeCheck]

/-- The three outcomes of the range check. -/
theorem rangeCheck_cases (cfg : Config) (n : Nat) :
    (1 ≤ n ∧ n ≤ cfg.maxRegisters.toNat ∧ rangeCheck cfg n = none) ∨
    (cfg.maxRegisters.toNat < n ∧
      rangeCheck cfg n = some (.raise .outOfRange .aboveMax cfg.maxRegisters.toNat n)) ∨
    (n = 0 ∧ rangeCheck cfg n = some (.raise .outOfRange .belowMin 1 0)) := by
  rcases Nat.lt_or_ge cfg.maxRegisters.toNat n with h | h
  · exact .inr (.inl ⟨h, rangeCheck_above cfg n h⟩)
  · rcases Nat.eq_zero_or_pos n with rfl | hn
    · exact .inr (.inr ⟨rfl, rangeCheck_below cfg⟩)
    · exact .inl ⟨hn, h, rangeCheck_passes cfg n hn h⟩

/-- Step 1a never reads outside a frame with a header. -/
theorem wrongFunctionCode_inside (cfg : Config) (f : List Byte) (h : 1 < f.length) :
    wrongFunctionCode cfg f =
      .ok (if cfg.fcCheck = true ∧ byteAt f 1 ≠ functionCode then some (byteAt f 1) else none) := by
  unfold wrongFunctionCode
  rw [memReadByte_inside f 1 h]
  by_cases hfc : cfg.fcCheck = true <;> by_cases hb : byteAt f 1 = functionCode <;>
    simp [hfc, hb, bind, Except.bind]

/-- Steps 4, 5 and 5a on a frame that holds its data never read outside it. -/
theorem decodeFields_inside (cfg : Config) (f : List Byte) (bc : Nat) (h : 7 + bc ≤ f.length) :
    decodeFields cfg f bc =
      .ok (match rangeCheck cfg (halfAt f 4).toNat with
        | some e => e
        | none =>
          if bc ≠ 2 * (halfAt f 4).toNat then
            .raise .malformedFrame .byteCountMismatch (2 * (halfAt f 4).toNat) bc
          else .ok (reqser { slave := byteAt f 0, start := halfAt f 2, data := wordsAt f 7 (bc / 2) })) := by
  unfold decodeFields
  rw [memReadByte_inside f 0 (by omega), memReadHalf_inside f 2 (by omega), memReadHalf_inside f 4 (by omega),
    readLanes_inside f 0 (bc / 2) (by simp [laneOffset, dataOffset]; omega)]
  rcases rangeCheck_cases cfg (halfAt f 4).toNat with ⟨_, _, h⟩ | ⟨_, h⟩ | ⟨_, h⟩ <;>
    simp [bind, Except.bind, h, laneOffset, dataOffset]
  split <;> rfl

/-- A frame with a header, through steps 1a to 3 (40_codec.md R95). -/
theorem decodeResult_header (cfg : Config) (f : List Byte) (h : 7 ≤ f.length) :
    decodeResult cfg f =
      if cfg.fcCheck = true ∧ byteAt f 1 ≠ functionCode then
        .ok (.raise .malformedFrame .functionCode functionCode.toNat (byteAt f 1).toNat)
      else if f.length < 7 + (byteAt f 6).toNat then
        .ok (.raise .malformedFrame .shortData (7 + (byteAt f 6).toNat) f.length)
      else decodeFields cfg f (byteAt f 6).toNat := by
  unfold decodeResult
  rw [if_neg (by simp [headerLen]; omega), wrongFunctionCode_inside cfg f (by omega),
    memReadByte_inside f byteCountOffset (by simp [byteCountOffset]; omega)]
  by_cases hfc : cfg.fcCheck = true ∧ byteAt f 1 ≠ functionCode
  · rw [if_pos hfc, if_pos hfc]; rfl
  · rw [if_neg hfc, if_neg hfc]; rfl

theorem decodeResult_short (cfg : Config) (f : List Byte) (h : f.length < 7) :
    decodeResult cfg f = .ok (.raise .malformedFrame .shortHeader 7 f.length) := by
  unfold decodeResult
  rw [if_pos (by simpa [headerLen] using h)]
  rfl

end Sys2Proof.Machine
end

