-- ==== Sys2Proof/Laws/Packet.lean ====
section
/-! SUPPORT. Laws/Packet.lean: everything the parts of the packet decoder can do (30_encoding.md R64 to R69). -/

namespace Sys2Proof

/-- What `splitRequest` accepts, and that it reads REQSER(r) followed by the extra bytes. -/
theorem splitRequest_ok (extra : Nat) (bs : List Byte) (r : Req) (tail : List Byte)
    (h : splitRequest extra bs = .ok (r, tail)) :
    r.data.length ≤ 255 ∧ tail.length = extra ∧ bs = reqser r ++ tail := by
  match bs, h with
  | slave :: s1 :: s0 :: l :: rest, h =>
    simp only [splitRequest] at h
    split at h
    · rename_i hlen
      simp only [Except.ok.injEq, Prod.mk.injEq] at h
      obtain ⟨rfl, rfl⟩ := h
      obtain ⟨hb, hl⟩ := dataBytes_pairWords l.toNat (rest.take (2 * l.toNat)) (by simp; omega)
      have := l.isLt
      refine ⟨?_, by simp; omega, ?_⟩
      · show (pairWords _).length ≤ 255
        omega
      · simp [reqser, hb, hl]
    · simp at h

/-- REQSER(r) followed by the extra bytes is split back. -/
theorem splitRequest_reqser (r : Req) (tail : List Byte) (h : r.data.length ≤ 255) :
    splitRequest tail.length (reqser r ++ tail) = .ok (r, tail) := by
  have hl := ofNat8_toNat r.data.length h
  have ht : List.take (2 * r.data.length) (dataBytes r.data ++ tail) = dataBytes r.data :=
    List.take_left' (dataBytes_length _)
  have hd : List.drop (2 * r.data.length) (dataBytes r.data ++ tail) = tail :=
    List.drop_left' (dataBytes_length _)
  simp only [reqser, List.cons_append, splitRequest, hl, ht, hd]
  simp

theorem splitFrame_ok (bs f : List Byte) (h : splitFrame bs = .ok f) :
    f.length ≤ 65535 ∧ bs = hiByte (BitVec.ofNat 16 f.length) :: loByte (BitVec.ofNat 16 f.length) :: f := by
  match bs, h with
  | m1 :: m0 :: rest, h =>
    simp only [splitFrame] at h
    split at h
    · rename_i hlen
      obtain rfl := Except.ok.inj h
      have := (beWord m1 m0).isLt
      rw [hlen, BitVec.ofNat_toNat]
      simp
      omega
    · simp at h

theorem splitFrame_encoded (f : List Byte) (h : f.length ≤ 65535) :
    splitFrame (hiByte (BitVec.ofNat 16 f.length) :: loByte (BitVec.ofNat 16 f.length) :: f) = .ok f := by
  simp only [splitFrame, beWord_hiByte_loByte, ofNat16_toNat f.length h]
  simp

theorem readRsp_ok (bs : List Byte) (rsp : Rsp) (h : readRsp bs = .ok rsp) :
    bs = beBytes rsp.start ++ beBytes rsp.count := by
  match bs, h with
  | [s1, s0, c1, c0], h =>
    obtain rfl := Except.ok.inj h
    simp [beBytes]

theorem readRsp_encoded (rsp : Rsp) : readRsp (beBytes rsp.start ++ beBytes rsp.count) = .ok rsp := by
  simp [beBytes, readRsp]

end Sys2Proof
end

