-- ==== Sys2Proof/Laws/PerInstr.lean ====
section
/-! SUPPORT. Laws/PerInstr.lean: one lemma per constructor of Instr: the length of its packet (30_encoding.md R65 to
R68). -/

namespace Sys2Proof.Laws.EncodedLength

/-- The packet lengths of 30_encoding.md R65 (5 + 2L), R66 (5 + 2L), R67 (3 + M) and R68 (9 + 2L). -/
def Statement (i : Instr) : Prop :=
  (encode i).length =
    match i with
    | .construct _ _ data => 5 + 2 * data.length
    | .encode r => 5 + 2 * r.data.length
    | .decode f => 3 + f.length
    | .validate r _ => 9 + 2 * r.data.length

theorem construct (slave : Byte) (start : Word) (data : List Word) : Statement (.construct slave start data) := by
  simp [Statement, Sys2Proof.encode, reqser_length]; omega

theorem encode (r : Req) : Statement (.encode r) := by
  simp [Statement, Sys2Proof.encode, reqser_length]; omega

theorem decode (f : List Byte) : Statement (.decode f) := by
  simp [Statement, Sys2Proof.encode]; omega

theorem validate (r : Req) (rsp : Rsp) : Statement (.validate r rsp) := by
  simp [Statement, Sys2Proof.encode, reqser_length, beBytes]; omega

end Sys2Proof.Laws.EncodedLength
end

