-- ==== Sys2Proof/Tests/Slice0.lean ====
section
/-! SUPPORT. Tests/Slice0.lean: the model's own tests. Expected values are the vectors of 95_test_vectors.md (named in each
comment) or worked by hand from the rule named; and, for every statement with hypotheses, a state and operands that meet
them (test_witness_…). -/

open Sys2Proof Sys2Proof.Machine

namespace Sys2Proof.Tests

/-! ## Small states and results -/

/-- After reset, with MAX_REGISTERS = m and FC_CHECK = b, and these host events pending. -/
def st (m : BitVec 8) (b : Bool) (es : List HostEvent) : State :=
  { State.reset with cfg := { maxRegisters := m, fcCheck := b }, pending := es }

/-- What the host reads after a step: the packed STATUS and OUT. -/
def latches : Host.Outcome State Fault Refusal → Option (BitVec 32 × BitVec 32 × BitVec 32 × List Byte)
  | .next s => some (s.status.word0, s.status.word1, s.status.word2, s.out)
  | .fault _ => none
  | .refused _ => none

/-- The request of 95_test_vectors.md section 2.4. -/
def q : Req := { slave := 0x11, start := 0x0001, data := [0x000A, 0x0102] }

/-- The wire frame of the source's worked example (S1). -/
def qFrame : List Byte := [0x11, 0x10, 0x00, 0x01, 0x00, 0x02, 0x04, 0x00, 0x0A, 0x01, 0x02]

/-- The state `s` with success and this OUT in the latches. -/
def okState (s : State) (out : List Byte) : State := { s with status := .plain .ok .noSub 0 0, out := out }

/-! ## WellFormed refuses an ill-formed term of each check (00_scope.md R9) -/

theorem test_wf_construct : (Instr.construct 0 0 (List.replicate 256 0)).wellFormed = false := by
  rw [Instr.wellFormed, List.length_replicate]; decide
theorem test_wf_encode : (Instr.encode { slave := 0, start := 0, data := List.replicate 256 0 }).wellFormed = false := by
  rw [Instr.wellFormed, List.length_replicate]; decide
theorem test_wf_decode : (Instr.decode (List.replicate 65536 0)).wellFormed = false := by
  rw [Instr.wellFormed, List.length_replicate]; decide
theorem test_wf_validate : (Instr.validate { slave := 0, start := 0, data := List.replicate 256 0 }
    { start := 0, count := 0 }).wellFormed = false := by
  rw [Instr.wellFormed, List.length_replicate]; decide
theorem test_wf_accepts_255 : (Instr.construct 0 0 (List.replicate 255 0)).wellFormed = true := by
  rw [Instr.wellFormed, List.length_replicate]; decide
/-- WF with MAX_REGISTERS = 2: 0 and 3 values are refused, 1 and 2 are not. -/
theorem test_req_wf_bounds :
    ¬ Req.WF { maxRegisters := 2, fcCheck := false } { slave := 0, start := 0, data := [] } ∧
    Req.WF { maxRegisters := 2, fcCheck := false } { slave := 0, start := 0, data := [7] } ∧
    Req.WF { maxRegisters := 2, fcCheck := false } { slave := 0, start := 0, data := [7, 8] } ∧
    ¬ Req.WF { maxRegisters := 2, fcCheck := false } { slave := 0, start := 0, data := [7, 8, 9] } := by decide

/-! ## Each constructor's packet, written out byte by byte from 30_encoding.md R65 to R68 -/

/-- C4: 01, slave 05, start 0100, L 03, values 1111 2222 3333. -/
theorem test_decode_construct : decodePacket [0x01, 0x05, 0x01, 0x00, 0x03, 0x11, 0x11, 0x22, 0x22, 0x33, 0x33] =
    .ok (.construct 0x05 0x0100 [0x1111, 0x2222, 0x3333]) := by decide
/-- E2: 02, slave 01, start 0000, L 01, value 8000. -/
theorem test_decode_encode : decodePacket [0x02, 0x01, 0x00, 0x00, 0x01, 0x80, 0x00] =
    .ok (.encode { slave := 0x01, start := 0x0000, data := [0x8000] }) := by decide
/-- D3 in packet form: 03, M 0006, six bytes. -/
theorem test_decode_decode : decodePacket [0x03, 0x00, 0x06, 0x11, 0x10, 0x00, 0x01, 0x00, 0x02] =
    .ok (.decode [0x11, 0x10, 0x00, 0x01, 0x00, 0x02]) := by decide
/-- V6: 04, slave 11, start FFFF, L 01, value 0001, response start 0000, count 0001. -/
theorem test_decode_validate : decodePacket [0x04, 0x11, 0xFF, 0xFF, 0x01, 0x00, 0x01, 0x00, 0x00, 0x00, 0x01] =
    .ok (.validate { slave := 0x11, start := 0xFFFF, data := [0x0001] } { start := 0x0000, count := 0x0001 }) := by decide
/-- X1, X2, X3: empty packet, codes 00 and 07. -/
theorem test_decode_bad_code : decodePacket [] = .error (.badLength 1 0) ∧
    decodePacket [0x00] = .error (.unknownCode 0x00) ∧ decodePacket [0x07] = .error (.unknownCode 0x07) := by decide
/-- X4 to X9: every way a length can be wrong. -/
theorem test_decode_bad_length :
    decodePacket [0x01, 0x11, 0x00] = .error (.badLength 5 3) ∧
    decodePacket [0x02, 0x11, 0x00, 0x01, 0x02, 0x00, 0x0A] = .error (.badLength 9 7) ∧
    decodePacket [0x03, 0x00] = .error (.badLength 3 2) ∧
    decodePacket [0x03, 0x00, 0x05, 0x11] = .error (.badLength 8 4) ∧
    decodePacket [0x04, 0x11, 0x00, 0x01, 0x01, 0x00, 0x0A] = .error (.badLength 11 7) ∧
    decodePacket [0x01, 0x11, 0x00, 0x01, 0x01, 0x00, 0x0A, 0x00] = .error (.badLength 7 8) := by decide
/-- The rows of the opcode table with zeros above their bits: empty data, an empty frame, a zero response. -/
theorem test_table_words :
    decodeTableWord 8 0x01 = some (.construct 0 0 []) ∧
    decodeTableWord 8 0x02 = some (.encode { slave := 0, start := 0, data := [] }) ∧
    decodeTableWord 8 0x03 = some (.decode []) ∧
    decodeTableWord 8 0x04 = some (.validate { slave := 0, start := 0, data := [] } { start := 0, count := 0 }) ∧
    decodeTableWord 8 0x05 = none := by decide
/-- Bits count on from the first byte: 01 55 11 32 01, one value of zeros after it. -/
theorem test_table_word_fields : decodeTableWord 40 0x0132115501 = some (.construct 0x55 0x1132 [0x0000]) := by decide
/-- The word placed by withFetchWord is the next command: DECODE of an empty frame is SHORT_HEADER (D2). -/
theorem test_fetch_word : latches (step (State.reset.withFetchWord 8 0x03)) =
    some (0x00000012, 0x00000007, 0, []) := by decide

/-! ## One step of each command, from packets -/

/-- C1 -/
theorem test_construct_ok : latches (step (st 123 false [.packet
    [0x01, 0x11, 0x00, 0x01, 0x02, 0x00, 0x0A, 0x01, 0x02]])) =
    some (0, 0, 0, [0x11, 0x00, 0x01, 0x02, 0x00, 0x0A, 0x01, 0x02]) := by decide
/-- C4: packed 00000011 00030002 00000000 -/
theorem test_construct_above_max : latches (step (st 2 false [.packet
    [0x01, 0x05, 0x01, 0x00, 0x03, 0x11, 0x11, 0x22, 0x22, 0x33, 0x33]])) =
    some (0x00000011, 0x00030002, 0, []) := by decide
/-- E3 -/
theorem test_encode_ok : latches (step (st 123 false [.packet
    [0x02, 0xF7, 0xFF, 0xFF, 0x03, 0xFF, 0xFF, 0x00, 0x00, 0x12, 0x34]])) =
    some (0, 0, 0, [0xF7, 0x10, 0xFF, 0xFF, 0x00, 0x03, 0x06, 0xFF, 0xFF, 0x00, 0x00, 0x12, 0x34]) := by decide
/-- E4: BELOW_MIN, EXP_A = 1 -/
theorem test_encode_below_min : latches (step (st 123 false [.packet [0x02, 0x11, 0x00, 0x01, 0x00]])) =
    some (0x00000021, 0x00000001, 0, []) := by decide
/-- D5: a trailing byte is ignored. -/
theorem test_decode_trailing : latches (step (st 123 false [.command (.decode (qFrame ++ [0xFF]))])) =
    some (0, 0, 0, [0x11, 0x00, 0x01, 0x02, 0x00, 0x0A, 0x01, 0x02]) := by decide
/-- P4 line 1: FC_CHECK = true, packed 00000022 00030010 00000000 -/
theorem test_decode_function_code : latches (step (st 123 true [.packet
    [0x03, 0x00, 0x09, 0x2A, 0x03, 0x00, 0x64, 0x00, 0x01, 0x02, 0x12, 0x34]])) =
    some (0x00000022, 0x00030010, 0, []) := by decide
/-- V4: both mismatches, packed 00000303 00020001 00030002 -/
theorem test_validate_both : latches (step (st 123 false [.packet
    [0x04, 0x11, 0x00, 0x01, 0x02, 0x00, 0x0A, 0x01, 0x02, 0x00, 0x02, 0x00, 0x03]])) =
    some (0x00000303, 0x00020001, 0x00030002, []) := by decide
/-- V7: the count only, packed 00000204 00010001 01020002 -/
theorem test_validate_count : latches (step (st 123 false [.packet
    [0x04, 0x11, 0x00, 0x01, 0x02, 0x00, 0x0A, 0x01, 0x02, 0x00, 0x01, 0x01, 0x02]])) =
    some (0x00000204, 0x00010001, 0x01020002, []) := by decide
/-- P3 line 5: packed 00000015 00070000 00000000 -/
theorem test_illegal_command : latches (step (st 123 false [.packet [0x07]])) =
    some (0x00000015, 0x00070000, 0, []) := by decide
/-- R-2: reset, whatever was in the latches. -/
theorem test_reset : latches (step { st 123 false [.reset] with
    status := validateStatus q { start := 2, count := 3 }, out := [1] }) = some (0x0000000F, 0, 0, []) := by decide
/-- P1 line 2: `$f := ENCODE $r` binds the frame to $f (variable 1), $r being variable 0. -/
theorem test_host_line :
    (match Session.runLine (.encode (some 1) (.var 0))
        { block := State.reset, env := [(0, .req q)], observed := [] } with
      | .ok (.next h) => h.env.find 1
      | _ => none) = some (.frame qFrame) := by decide
/-- A line that uses an unbound variable has no packet (log 14). -/
theorem test_host_line_unbound : HostLine.assemble [] (.encode none (.var 3)) = .error (.unbound 3) := by decide

/-! ## Witnesses: every statement with hypotheses can be met -/

theorem test_witness_EncodedCommandDecodesBack :
    (Instr.construct 0x11 1 [0x000A]).wellFormed = true ∧ (Instr.encode q).wellFormed = true ∧
    (Instr.decode qFrame).wellFormed = true ∧ (Instr.validate q { start := 1, count := 2 }).wellFormed = true := by decide
theorem test_witness_DecodedPacketIsItsEncoding :
    decodePacket [0x02, 0x01, 0x00, 0x00, 0x01, 0x80, 0x00] = .ok (.encode { slave := 1, start := 0, data := [0x8000] }) := by
  decide
/-- No value, one value, a frame of 0x0101 bytes is too long to write out: one of 1 byte, and a response alone. -/
theorem test_witness_PacketDecoderReadsFields :
    ([] : List Byte).length = 2 * (0 : Byte).toNat ∧ ([0x12, 0x34] : List Byte).length = 2 * (1 : Byte).toNat ∧
    ([0x12] : List Byte).length = (1 : Byte).toNat + 256 * (0 : Byte).toNat ∧
    ([0, 1, 0, 2] : List Byte).length = 2 * (0 : Byte).toNat + 4 := by decide
/-- One packet for each clause: code 0 and 5; lengths 1 and 4 of the request codes; one byte short and one long of each
length; DECODE packets of 2 and 4 bytes. -/
theorem test_witness_PacketDecoderRejects :
    ((0 : Byte) ≠ 1 ∧ (0 : Byte) ≠ 2 ∧ (0 : Byte) ≠ 3 ∧ (0 : Byte) ≠ 4) ∧
    ((5 : Byte) ≠ 1 ∧ (5 : Byte) ≠ 2 ∧ (5 : Byte) ≠ 3 ∧ (5 : Byte) ≠ 4) ∧
    (1 + ([] : List Byte).length < 5 ∧ 1 + ([0, 0, 0] : List Byte).length < 5) ∧
    (5 ≤ 1 + ([0, 0, 0, 0, 9] : List Byte).length ∧
      1 + ([0, 0, 0, 0, 9] : List Byte).length ≠ 5 + 2 * (byteAt [0, 0, 0, 0, 9] 3).toNat ∧
      1 + ([0, 0, 0, 0, 9] : List Byte).length ≠ 9 + 2 * (byteAt [0, 0, 0, 0, 9] 3).toNat) ∧
    1 + ([0] : List Byte).length < 3 ∧
    (3 ≤ 1 + ([0, 0, 9] : List Byte).length ∧
      1 + ([0, 0, 9] : List Byte).length ≠ 3 + (halfAt [0, 0, 9] 0).toNat) := by decide
theorem test_witness_ReqserParsesBack : q.data.length ≤ 255 ∧
    parseReqser [0x11, 0x00, 0x01, 0x02, 0x00, 0x0A, 0x01, 0x02] = some q := by decide
theorem test_witness_StepRunsDecodedPacket :
    (st 123 false [.packet [0x03, 0x00, 0x00]]).pending = .packet [0x03, 0x00, 0x00] :: [] ∧
    decodePacket [0x03, 0x00, 0x00] = .ok (.decode []) := by decide
theorem test_witness_StepRunsTypedCommandOrIdles :
    (st 123 false [.command (.encode q)]).pending = .command (.encode q) :: [] ∧ State.reset.pending = [] := by decide
theorem test_witness_UnknownCodeIsIllegal :
    (st 123 false [.packet [5]]).pending = .packet (5 :: []) :: [] ∧ ((5 : Byte) = 0 ∨ 5 ≤ (5 : Byte).toNat) ∧
    (st 123 false [.packet [0]]).pending = .packet (0 :: []) :: [] ∧ ((0 : Byte) = 0 ∨ 5 ≤ (0 : Byte).toNat) ∧
    ((255 : Byte) = 0 ∨ 5 ≤ (255 : Byte).toNat) := by decide
theorem test_witness_BadLengthIsIllegal :
    (st 123 false [.packet [3, 0]]).pending = .packet [3, 0] :: [] ∧
    decodePacket [3, 0] = .error (.badLength 3 2) := by decide
theorem test_witness_ResetRestoresLatches : (st 123 false [.reset]).pending = .reset :: [] := by decide
/-- N = 1, N = MAX_REGISTERS, N = MAX_REGISTERS + 1 and N = 0. -/
theorem test_witness_ConstructBuildsOrRejects :
    (1 ≤ ([7] : List Word).length ∧ ([7] : List Word).length ≤ (st 2 false []).cfg.maxRegisters.toNat) ∧
    (1 ≤ ([7, 8] : List Word).length ∧ ([7, 8] : List Word).length ≤ (st 2 false []).cfg.maxRegisters.toNat) ∧
    (st 2 false []).cfg.maxRegisters.toNat < ([7, 8, 9] : List Word).length ∧ ([] : List Word).length = 0 := by decide
/-- N = 2 = MAX_REGISTERS, N = 2 over MAX_REGISTERS = 1, and N = 0. -/
theorem test_witness_EncodeSerializesOrRejects :
    (1 ≤ q.data.length ∧ q.data.length ≤ (st 2 false []).cfg.maxRegisters.toNat) ∧
    (st 1 false []).cfg.maxRegisters.toNat < q.data.length ∧ ({ q with data := [] } : Req).data.length = 0 := by decide
theorem test_witness_EncodePacksEveryLane : q.WF State.reset.cfg ∧ 1 < q.data.length ∧
    exec (.encode q) State.reset = .next (okState State.reset qFrame) := ⟨by decide, by decide, rfl⟩
theorem test_witness_FreshFrameContentUnseen :
    ([1, 2, 3, 4, 5, 6, 7, 8, 9, 10, 11] : List Byte).length = 7 + 2 * q.data.length := by decide
theorem test_witness_EncodedByteCountConsistent : State.reset.cfg.legal ∧
    exec (.encode q) State.reset = .next (okState State.reset qFrame) ∧
    (okState State.reset qFrame).status.code = .ok := ⟨by decide, rfl, by decide⟩
theorem test_witness_EncodedFrameLength : (st 127 false []).cfg.legal ∧ (st 1 false []).cfg.legal ∧
    exec (.encode q) (st 127 false []) = .next (okState (st 127 false []) qFrame) ∧
    (okState (st 127 false []) qFrame).status.code = .ok := ⟨by decide, by decide, rfl, by decide⟩
/-- The last branch with FC_CHECK = true and N = MAX_REGISTERS. -/
theorem test_witness_DecodeParses : qFrame.length ≤ 65535 ∧
    7 ≤ qFrame.length ∧ ((st 2 true []).cfg.fcCheck = true → byteAt qFrame 1 = 0x10) ∧
    7 + (byteAt qFrame 6).toNat ≤ qFrame.length ∧ halfAt qFrame 4 ≠ 0 ∧
    (halfAt qFrame 4).toNat ≤ (st 2 true []).cfg.maxRegisters.toNat ∧
    (byteAt qFrame 6).toNat = 2 * (halfAt qFrame 4).toNat := by decide
/-- One frame for each branch, and its STATUS by 60_exceptions.md R126: six bytes (D3), byte 1 = 03 with FC_CHECK (D13),
one byte short (S4). -/
theorem test_witness_DecodeReportsFirstBrokenRule :
    latches (exec (.decode [0x11, 0x10, 0, 1, 0, 2]) (st 123 true [])) = some (0x12, 0x00060007, 0, []) ∧
    latches (exec (.decode [0x11, 0x03, 0, 1, 0, 2, 4]) (st 123 true [])) = some (0x22, 0x00030010, 0, []) ∧
    latches (exec (.decode [0x11, 0x10, 0, 1, 0, 2, 4, 0, 0x0A]) (st 123 false [])) =
      some (0x32, 0x0009000B, 0, []) := by decide
/-- N = 3 over MAX_REGISTERS = 2 (D16), N = 0 (D6), an odd byteCount (D9). -/
theorem test_witness_DecodeReportsFirstBrokenRule_late :
    latches (exec (.decode [5, 0x10, 1, 0, 0, 3, 6, 1, 1, 2, 2, 3, 3]) (st 2 false [])) =
      some (0x11, 0x00030002, 0, []) ∧
    latches (exec (.decode [0x11, 0x10, 0, 1, 0, 0, 0]) (st 123 false [])) = some (0x21, 0x00000001, 0, []) ∧
    latches (exec (.decode [0x11, 0x10, 0, 1, 0, 1, 3, 0, 0x0A, 1]) (st 123 false [])) =
      some (0x42, 0x00030002, 0, []) := by decide
theorem test_witness_DecodeIgnoresTrailingBytes :
    exec (.decode qFrame) State.reset = .next (okState State.reset (reqser q)) ∧
    (okState State.reset (reqser q)).status.code = .ok := ⟨rfl, by decide⟩
theorem test_witness_DecodeIgnoresFunctionCodeByte : (st 123 false []).cfg.fcCheck = false := by decide
theorem test_witness_DecodedRequestIsValid :
    exec (.decode qFrame) (st 2 true []) = .next (okState (st 2 true []) (reqser q)) ∧
    (okState (st 2 true []) (reqser q)).status.code = .ok := ⟨rfl, by decide⟩
theorem test_witness_DecodeOfEncodeIsTheRequest :
    (st 2 true []).cfg.legal ∧ (st 2 true [.reset]).cfg = (st 2 true []).cfg ∧ q.WF (st 2 true []).cfg := by decide
theorem test_witness_EncodeOfDecodeIsTheFrame :
    State.reset.cfg.legal ∧ (st 123 false [.reset]).cfg = State.reset.cfg ∧
    exec (.decode (qFrame ++ [0xFF])) State.reset = .next (okState State.reset (reqser q)) ∧
    (okState State.reset (reqser q)).status.code = .ok ∧ (okState State.reset (reqser q)).out = reqser q :=
  ⟨by decide, by decide, rfl, by decide, by decide⟩
/-- Both values agree; the start differs; the count differs (V1, V2, V3). -/
theorem test_witness_ValidatorLaws :
    ((1 : Word) = q.start ∧ (2 : Word).toNat = q.data.length) ∧ (2 : Word) ≠ q.start ∧
    (3 : Word).toNat ≠ q.data.length := by decide
theorem test_witness_ValidateReadsNothingElse :
    q.start = ({ slave := 0, start := 1, data := [7, 8] } : Req).start ∧
    q.data.length = ({ slave := 0, start := 1, data := [7, 8] } : Req).data.length := by decide
theorem test_witness_AcceptedResponseAnswersSentFrame :
    (({ sent := q, validated := q, rsp := { start := 1, count := 2 }, rspVariant := 0x10 } : Transaction).validated = q ∧
      (0x10 : Byte) = functionCode) ∧ State.reset.cfg.legal ∧
    exec (.encode q) State.reset = .next (okState State.reset qFrame) ∧
    exec (.validate q { start := 1, count := 2 }) State.reset =
      .next (State.reset.complete (validateStatus q { start := 1, count := 2 }) []) ∧
    (validateStatus q { start := 1, count := 2 }).code = .ok :=
  ⟨by decide, by decide, rfl, rfl, by decide⟩
theorem test_witness_CommandsReadNoState : (st 2 true []).cfg = (st 2 true [.reset]).cfg := by decide
theorem test_witness_RaisedErrorClearsTheRest :
    exec (.construct 0 0 []) State.reset = .next (State.reset.raise .outOfRange .belowMin 1 0) ∧
    (State.reset.raise .outOfRange .belowMin 1 0).status.code ≠ .ok ∧
    (∀ r rsp, Instr.construct 0 0 [] ≠ .validate r rsp) :=
  ⟨rfl, by decide, fun _ _ h => Instr.noConfusion h⟩
theorem test_witness_ErrorsComeFromTheirCommands :
    exec (.decode []) State.reset = .next (State.reset.raise .malformedFrame .shortHeader 7 0) ∧
    (validateStatus q { start := 2, count := 2 }).code = .unexpectedStartAddress ∧
    (validateStatus q { start := 1, count := 3 }).code = .unexpectedNumberOfPoints := ⟨rfl, by decide, by decide⟩
theorem test_witness_ReissuedCommandRepeats :
    exec (.encode q) State.reset = .next (okState State.reset qFrame) := rfl
theorem test_witness_StepKeepsInvariant : (st 123 false [.packet [7]]).Inv ∧
    step (st 123 false [.packet [7]]) = .next ((st 123 false []).raise .illegalCommand .unknownCode 0 7) :=
  ⟨⟨by decide, rfl, by decide, by decide⟩, rfl⟩
theorem test_witness_PackedStatusReadsBack :
    (validateStatus q { start := 2, count := 3 }).code.listed (validateStatus q { start := 2, count := 3 }).sub = true := by
  decide
/-- CODE 6 and 14; CODE = OK with SUB 1; bit 10 and bit 31 of STATUS0. -/
theorem test_witness_ReservedStatusFaults :
    (6 ≤ ((0x6 : BitVec 32).extractLsb' 0 4).toNat ∧ ((0x6 : BitVec 32).extractLsb' 0 4).toNat ≤ 14) ∧
    (6 ≤ ((0xE : BitVec 32).extractLsb' 0 4).toNat ∧ ((0xE : BitVec 32).extractLsb' 0 4).toNat ≤ 14) ∧
    Status.ofWords 0x10 0 0 = .error .reservedStatus ∧
    (0x400 : BitVec 32).extractLsb' 10 22 ≠ 0 ∧ (0x80000000 : BitVec 32).extractLsb' 10 22 ≠ 0 := by decide
theorem test_witness_ReservedStatusFaults_unlisted :
    ∀ (c : Code) (sb : Sub), c.listed sb = true → c.bits = (0x10 : BitVec 32).extractLsb' 0 4 →
      sb.bits ≠ (0x10 : BitVec 32).extractLsb' 4 4 := by
  intro c sb; cases c <;> cases sb <;> decide
theorem test_witness_HostReadsRegisters :
    State.reset.status.code.listed State.reset.status.sub = true ∧
    ({ State.reset with status := Status.plain .ok .aboveMax 0 0 } : State).status.code.listed
      ({ State.reset with status := Status.plain .ok .aboveMax 0 0 } : State).status.sub = false := by decide
/-- The last byte, one past it; the last pair, one past it. -/
theorem test_witness_MemReadIsBigEndianOrFaults :
    10 < qFrame.length ∧ qFrame.length < 11 + 1 ∧ 9 + 1 < qFrame.length ∧ qFrame.length < 10 + 2 := by decide
theorem test_witness_MemWriteThenRead : 10 < qFrame.length ∧ 9 + 2 ≤ qFrame.length := by decide
theorem test_witness_RangeCheckVerdicts : (st 2 false []).cfg.legal ∧ (st 2 false []).cfg.maxRegisters.toNat < 3 ∧
    (2 ≤ (st 2 false []).cfg.maxRegisters.toNat) ∧ (st 127 false []).cfg.legal ∧ (st 1 false []).cfg.legal := by decide
theorem test_witness_EncodeLineBindsFrame : State.reset.cfg.legal ∧ q.WF State.reset.cfg ∧
    HostEnv.find [(0, .req q)] 0 = some (.req q) := by decide
theorem test_witness_FailedLineLeavesVariableUnbound :
    (HostLine.construct (some 0) 0 0 []).target = some 0 ∧
    Session.runLine (.construct (some 0) 0 0 []) { block := State.reset, env := [(0, .req q)], observed := [] } =
      .ok (.next { block := State.reset.raise .outOfRange .belowMin 1 0, env := [],
                   observed := [(State.reset.raise .outOfRange .belowMin 1 0).observation] }) ∧
    (State.reset.raise .outOfRange .belowMin 1 0).status.code ≠ .ok := ⟨by decide, rfl, by decide⟩

end Sys2Proof.Tests
end

section
/-! The step by what is pending: idle with nothing pending, otherwise the first event issued (10_state.md R22, R23). -/

namespace Sys2Proof.Machine

/-! ## One step -/

theorem step_of_pending_nil (s : State) (h : s.pending = []) : step s = .next s := by
  simp only [step, takeEvent, h]

theorem step_of_pending_cons (s : State) (e : HostEvent) (rest : List HostEvent) (h : s.pending = e :: rest) :
    step s = issue e { s with pending := rest } := by
  simp only [step, takeEvent, h]

@[simp] theorem issue_command (i : Instr) (s : State) : issue (.command i) s = exec i s := rfl

/-! ## The scope's statement on the step -/

/-- Settles O8: the two cases of the pending program, with a typed command issued by executing it. -/
theorem stepRunsTypedCommandOrIdles : Obligations.StepRunsTypedCommandOrIdles := by
  unfold Obligations.StepRunsTypedCommandOrIdles
  constructor
  · intro s rest i h
    rw [step_of_pending_cons s (.command i) rest h, issue_command]
  · exact step_of_pending_nil

end Sys2Proof.Machine
end

section
/-! The packed view of STATUS (10_state.md R31): each word as a number, each field read at its bits, and everything
reading the words back can answer (93_implementation_defined.md I8). -/

namespace Sys2Proof.Machine

/-! ## STATUS0 -/

/-- Each field of STATUS0 fits the bits it has. -/
theorem Status.word0_fieldBounds (st : Status) :
    st.code.bits.toNat < 16 ∧ st.sub.bits.toNat < 16 ∧ st.mmStart.toNat < 2 ∧ st.mmCount.toNat < 2 :=
  ⟨st.code.bits.isLt, st.sub.bits.isLt, st.mmStart.toNat_lt, st.mmCount.toNat_lt⟩

/-- The fields of STATUS0 do not overlap and fit, so nothing of the sum is lost modulo 2^32. -/
theorem Status.word0_toNat (st : Status) :
    st.word0.toNat =
      st.code.bits.toNat + 16 * st.sub.bits.toNat + 256 * st.mmStart.toNat + 512 * st.mmCount.toNat := by
  have := st.word0_fieldBounds
  simp only [Status.word0, BitVec.toNat_ofNat]
  omega

@[simp] theorem Status.word0_code (st : Status) : st.word0.extractLsb' 0 4 = st.code.bits := by
  apply BitVec.eq_of_toNat_eq
  have := st.word0_fieldBounds
  simp only [BitVec.extractLsb'_toNat, Status.word0_toNat, Nat.shiftRight_eq_div_pow]
  omega

@[simp] theorem Status.word0_sub (st : Status) : st.word0.extractLsb' 4 4 = st.sub.bits := by
  apply BitVec.eq_of_toNat_eq
  have := st.word0_fieldBounds
  simp only [BitVec.extractLsb'_toNat, Status.word0_toNat, Nat.shiftRight_eq_div_pow]
  omega

theorem Status.word0_mmStart (st : Status) : st.word0.getLsbD 8 = st.mmStart := by
  have := st.word0_fieldBounds
  have hbit : st.word0.toNat / 2 ^ 8 % 2 = st.mmStart.toNat := by
    rw [Status.word0_toNat]
    omega
  rw [BitVec.getLsbD, Nat.testBit_eq_decide_div_mod_eq, hbit]
  cases st.mmStart <;> rfl

theorem Status.word0_mmCount (st : Status) : st.word0.getLsbD 9 = st.mmCount := by
  have := st.word0_fieldBounds
  have hbit : st.word0.toNat / 2 ^ 9 % 2 = st.mmCount.toNat := by
    rw [Status.word0_toNat]
    omega
  rw [BitVec.getLsbD, Nat.testBit_eq_decide_div_mod_eq, hbit]
  cases st.mmCount <;> rfl

@[simp] theorem Status.word0_reserved (st : Status) : st.word0.extractLsb' 10 22 = 0 := by
  apply BitVec.eq_of_toNat_eq
  have := st.word0_fieldBounds
  simp only [BitVec.extractLsb'_toNat, Status.word0_toNat, Nat.shiftRight_eq_div_pow,
    BitVec.ofNat_eq_ofNat, BitVec.toNat_zero]
  omega

/-! ## STATUS1 and STATUS2 -/

/-- Two 16-bit values side by side: the low one stands at [15:0]. -/
theorem extractLsb'_low_of_halves (lo hi : Word) :
    (BitVec.ofNat 32 (lo.toNat + 65536 * hi.toNat)).extractLsb' 0 16 = lo := by
  apply BitVec.eq_of_toNat_eq
  simp only [BitVec.extractLsb'_toNat, BitVec.toNat_ofNat, Nat.shiftRight_eq_div_pow]
  omega

/-- Two 16-bit values side by side: the high one stands at [31:16]. -/
theorem extractLsb'_high_of_halves (lo hi : Word) :
    (BitVec.ofNat 32 (lo.toNat + 65536 * hi.toNat)).extractLsb' 16 16 = hi := by
  apply BitVec.eq_of_toNat_eq
  simp only [BitVec.extractLsb'_toNat, BitVec.toNat_ofNat, Nat.shiftRight_eq_div_pow]
  omega

@[simp] theorem Status.word1_expA (st : Status) : st.word1.extractLsb' 0 16 = st.expA :=
  extractLsb'_low_of_halves _ _

@[simp] theorem Status.word1_rcvA (st : Status) : st.word1.extractLsb' 16 16 = st.rcvA :=
  extractLsb'_high_of_halves _ _

@[simp] theorem Status.word2_expB (st : Status) : st.word2.extractLsb' 0 16 = st.expB :=
  extractLsb'_low_of_halves _ _

@[simp] theorem Status.word2_rcvB (st : Status) : st.word2.extractLsb' 16 16 = st.rcvB :=
  extractLsb'_high_of_halves _ _

/-! ## Reading the words back -/

/-- The packed words of a listed CODE and SUB pair read back. -/
theorem Status.ofWords_words (st : Status) (h : st.code.listed st.sub = true) :
    Status.ofWords st.word0 st.word1 st.word2 = .ok st := by
  simp only [Status.ofWords, Status.word0_reserved, Status.word0_code, Status.word0_sub, Code.ofBits_bits,
    Sub.ofBits_bits _ _ h, Status.word0_mmStart, Status.word0_mmCount, Status.word1_expA, Status.word1_rcvA,
    Status.word2_expB, Status.word2_rcvB, if_true]

/-- What reading back can answer: the fault, or a STATUS, and then the reserved bits are 0 and the CODE and SUB fields
hold the numbers of a listed pair. -/
theorem Status.ofWords_cases (w0 w1 w2 : BitVec 32) :
    Status.ofWords w0 w1 w2 = .error .reservedStatus ∨
      w0.extractLsb' 10 22 = 0 ∧ ∃ (c : Code) (sb : Sub),
        c.listed sb = true ∧ c.bits = w0.extractLsb' 0 4 ∧ sb.bits = w0.extractLsb' 4 4 := by
  unfold Status.ofWords
  split
  case isFalse => exact .inl rfl
  case isTrue hreserved =>
    split
    case h_1 => exact .inl rfl
    case h_2 c hc =>
      split
      case h_1 => exact .inl rfl
      case h_2 sb hsb =>
        obtain ⟨hlisted, hsub⟩ := Sub.bits_ofBits _ _ _ hsb
        exact .inr ⟨hreserved, c, sb, hlisted, Code.bits_ofBits _ _ hc, hsub⟩

/-- No CODE has a number of the reserved range 6 to 14 (10_state.md R26). -/
theorem Code.bits_not_reserved (c : Code) : ¬ (6 ≤ c.bits.toNat ∧ c.bits.toNat ≤ 14) := by
  cases c <;> decide

/-! ## The scope's statements on the packed view -/

/-- Settles O41, field by field. -/
theorem packedStatusLayout : Obligations.PackedStatusLayout := by
  unfold Obligations.PackedStatusLayout
  intro st
  exact ⟨st.word0_code, st.word0_sub, st.word0_mmStart, st.word0_mmCount, st.word0_reserved,
    st.word1_expA, st.word1_rcvA, st.word2_expB, st.word2_rcvB⟩

/-- Settles O42: every field is read at the bits it was packed at, and the numbers of a listed pair name it. -/
theorem packedStatusReadsBack : Obligations.PackedStatusReadsBack := by
  unfold Obligations.PackedStatusReadsBack
  exact Status.ofWords_words

/-- Settles O43: words that read back would have reserved bits 0 and a listed pair, which each clause excludes. -/
theorem reservedStatusFaults : Obligations.ReservedStatusFaults := by
  unfold Obligations.ReservedStatusFaults
  intro w0 w1 w2
  obtain hfault | ⟨hreserved, c, sb, hlisted, hcode, hsub⟩ := Status.ofWords_cases w0 w1 w2
  · exact ⟨fun _ _ => hfault, fun _ => hfault, fun _ => hfault⟩
  · refine ⟨fun h6 h14 => ?_, fun hnone => ?_, fun hbit => ?_⟩
    · rw [← hcode] at h6 h14
      exact absurd ⟨h6, h14⟩ c.bits_not_reserved
    · exact absurd hsub (hnone c sb hlisted hcode)
    · exact absurd hreserved hbit

/-- Settles O44: the tables of R26 and R27, row by row. -/
theorem codeAndSubNumbers : Obligations.CodeAndSubNumbers := by
  unfold Obligations.CodeAndSubNumbers
  exact ⟨⟨rfl, rfl, rfl, rfl, rfl, rfl, rfl⟩, ⟨rfl, rfl, rfl, rfl, rfl, rfl, rfl, rfl, rfl⟩⟩

end Sys2Proof.Machine
end

section
/-! What a command writes: the values of the two latches are a function of the command and the configuration alone
(10_state.md R20, R25). -/

namespace Sys2Proof.Machine

/-! ## ENCODE and DECODE always give a result -/

/-- ENCODE writes every offset of its output frame, whatever stood there (20_memory.md R41). -/
theorem encodeInto_eq_wireFrame (g : List Byte) (r : Req) (h : g.length = 7 + 2 * r.data.length) :
    encodeInto g r = .ok (wireFrame r) := by
  rw [Nat.add_comm] at h
  match g, h with
  | _ :: _ :: _ :: _ :: _ :: _ :: _ :: rest, h =>
    have hrest : rest.length = 2 * r.data.length := by simpa using h
    have hlanes := writeLanes_append r.data 0
      [r.slave, functionCode, hiByte r.start, loByte r.start, hiByte (BitVec.ofNat 16 r.numberOfPoints),
        loByte (BitVec.ofNat 16 r.numberOfPoints), BitVec.ofNat 8 r.byteCount] rest rfl hrest
    simpa [encodeInto, memWriteByte_inside, memWriteHalf_inside, byteCountOffset, bind, Except.bind, wireFrame,
      ← dataBytes_eq_flatMap, functionCode, Req.numberOfPoints, Req.byteCount] using hlanes

/-- No write of ENCODE falls outside its frame. -/
theorem encodeResult_answers (cfg : Config) (r : Req) : ∃ res, encodeResult cfg r = .ok res := by
  unfold encodeResult
  cases rangeCheck cfg r.numberOfPoints with
  | some e => exact ⟨e, rfl⟩
  | none =>
    refine ⟨.ok (wireFrame r), ?_⟩
    simp only [encodeInto_eq_wireFrame (freshFrame (headerLen + r.byteCount)) r
      (by simp [freshFrame, headerLen, Req.byteCount])]
    rfl

/-- No read of DECODE falls outside its frame (40_codec.md R95). -/
theorem decodeResult_answers (cfg : Config) (f : List Byte) : ∃ res, decodeResult cfg f = .ok res := by
  rcases Nat.lt_or_ge f.length 7 with hshort | hheader
  · exact ⟨_, decodeResult_short cfg f hshort⟩
  · rw [decodeResult_header cfg f hheader]
    split
    · exact ⟨_, rfl⟩
    · split
      · exact ⟨_, rfl⟩
      · exact ⟨_, decodeFields_inside cfg f _ (by omega)⟩

/-! ## The two latches -/

/-- A computation that gives a result completes every state with the same pair. -/
theorem State.finish_completes (res : Except Fault Result) (h : ∃ r, res = .ok r) :
    ∃ st o, ∀ s : State, s.finish res = .next (s.complete st o) := by
  obtain ⟨r, rfl⟩ := h
  obtain ⟨st, o, hwrites⟩ := State.deliver_writes r
  exact ⟨st, o, fun s => congrArg Host.Outcome.next (hwrites s)⟩

/-- Under one configuration a command completes every state with the same STATUS and OUT. -/
theorem exec_completes (i : Instr) (cfg : Config) :
    ∃ st o, ∀ s : State, s.cfg = cfg → exec i s = .next (s.complete st o) := by
  cases i with
  | construct slave start data =>
    obtain ⟨st, o, h⟩ := State.finish_completes (.ok (constructResult cfg slave start data)) ⟨_, rfl⟩
    exact ⟨st, o, by rintro s rfl; exact h s⟩
  | encode r =>
    obtain ⟨st, o, h⟩ := State.finish_completes _ (encodeResult_answers cfg r)
    exact ⟨st, o, by rintro s rfl; exact h s⟩
  | decode f =>
    obtain ⟨st, o, h⟩ := State.finish_completes _ (decodeResult_answers cfg f)
    exact ⟨st, o, by rintro s rfl; exact h s⟩
  | validate r rsp => exact ⟨validateStatus r rsp, [], fun _ _ => rfl⟩

/-! ## The scope's statements on commands -/

/-- Settles O32: both states are completed with the pair the command and the configuration determine. -/
theorem commandsReadNoState : Obligations.CommandsReadNoState := by
  unfold Obligations.CommandsReadNoState
  intro i s s' hcfg
  obtain ⟨st, o, h⟩ := exec_completes i s.cfg
  exact ⟨s.complete st o, s'.complete st o, h s rfl, h s' hcfg.symm, rfl, rfl⟩

/-- A packet that decodes is issued by executing its command (30_encoding.md R69). -/
theorem issue_packet_of_decode (p : List Byte) (i : Instr) (s : State) (h : decodePacket p = .ok i) :
    issue (.packet p) s = exec i s := by
  simp only [issue, issuePacket, h]

/-- Settles O7: the step issues the packet, and issuing it executes what it decodes to. -/
theorem stepRunsDecodedPacket : Obligations.StepRunsDecodedPacket := by
  unfold Obligations.StepRunsDecodedPacket
  intro s p rest i hpending hdecode
  rw [step_of_pending_cons s (.packet p) rest hpending, issue_packet_of_decode p i _ hdecode]

end Sys2Proof.Machine
end

section
/-! The host's reads and the machine right after reset (10_state.md R31 to R37). -/

namespace Sys2Proof.Machine

/-! ## The read port -/

@[simp] theorem State.hostRead_status1 (s : State) : s.hostRead .status1 = .ok (.word s.status.word1) := rfl
@[simp] theorem State.hostRead_status2 (s : State) : s.hostRead .status2 = .ok (.word s.status.word2) := rfl
@[simp] theorem State.hostRead_out (s : State) : s.hostRead .out = .ok (.bytes s.out) := rfl
@[simp] theorem State.hostRead_maxRegisters (s : State) :
    s.hostRead .maxRegisters = .ok (.byte s.cfg.maxRegisters) := rfl
@[simp] theorem State.hostRead_functionCode (s : State) : s.hostRead .functionCode = .ok (.byte 0x10) := rfl
@[simp] theorem State.hostRead_fcCheck (s : State) : s.hostRead .fcCheck = .ok (.bit s.cfg.fcCheck) := rfl

theorem State.hostRead_status0_of_listed (s : State) (h : s.status.code.listed s.status.sub = true) :
    s.hostRead .status0 = .ok (.word s.status.word0) := by
  simp only [State.hostRead, h, if_true]

theorem State.hostRead_status0_of_unlisted (s : State) (h : s.status.code.listed s.status.sub = false) :
    s.hostRead .status0 = .error .reservedStatus := by
  simp [State.hostRead, h]

/-! ## The scope's statements on reads and reset -/

/-- Settles O45, register by register. -/
theorem hostReadsRegisters : Obligations.HostReadsRegisters := by
  unfold Obligations.HostReadsRegisters
  intro s
  exact ⟨s.hostRead_functionCode, s.hostRead_maxRegisters, s.hostRead_fcCheck, s.hostRead_out,
    s.hostRead_status1, s.hostRead_status2, s.hostRead_status0_of_listed, s.hostRead_status0_of_unlisted⟩

/-- Settles O12: the fields of the reset state, and the host's reads of it. -/
theorem resetValues : Obligations.ResetValues := by
  unfold Obligations.ResetValues
  exact ⟨rfl, rfl, rfl, rfl, rfl, rfl, rfl, rfl, rfl, rfl, rfl,
    State.reset.hostRead_status0_of_listed rfl, State.reset.hostRead_status1, State.reset.hostRead_status2,
    State.reset.hostRead_functionCode⟩

/-- Settles O39: the default configuration is legal, STATUS is the row of reset, and OUT is empty. -/
theorem resetMeetsInvariant : Obligations.ResetMeetsInvariant := by
  unfold Obligations.ResetMeetsInvariant
  exact { cfgLegal := by decide, statusRow := rfl, outEmpty := fun _ => rfl, outShort := Nat.zero_le _ }

end Sys2Proof.Machine
end

section
/-! One rule for each access to the two frame spaces: what a read answers, and what a write changes and leaves
(20_memory.md R41 to R45). -/

namespace Sys2Proof.Machine

/-! ## Reads -/

theorem memReadByte_of_getElem? (f : List Byte) (a : Nat) (b : Byte) (h : f[a]? = some b) :
    memReadByte f a = .ok b := by
  simp only [memReadByte, h]

/-- A byte that has the same value in two frames is read with the same answer. -/
theorem memReadByte_congr (f g : List Byte) (a : Nat) (h : f[a]? = g[a]?) : memReadByte f a = memReadByte g a := by
  simp only [memReadByte, h]

theorem memReadHalf_of_bytes (f : List Byte) (a : Nat) (hi lo : Byte) (hhi : memReadByte f a = .ok hi)
    (hlo : memReadByte f (a + 1) = .ok lo) : memReadHalf f a = .ok (beWord hi lo) := by
  rw [memReadHalf, hhi, hlo]
  rfl

/-- `hi * 256 + lo` does not overflow 16 bits, so it may be computed in them. -/
theorem beWord_eq_setWidth (hi lo : Byte) : beWord hi lo = hi.setWidth 16 * 256 + lo.setWidth 16 := by
  apply BitVec.eq_of_toNat_eq
  rw [beWord_toNat]
  bv_omega

/-! ## Writes -/

/-- A byte written inside the frame is read back there, and no other offset changes. -/
theorem memWriteByte_reads_back (g : List Byte) (a : Nat) (b : Byte) (h : a < g.length) :
    ∃ g', memWriteByte g a b = .ok g' ∧ g'.length = g.length ∧ memReadByte g' a = .ok b ∧
      ∀ c, c ≠ a → g'[c]? = g[c]? :=
  ⟨g.set a b, memWriteByte_inside g a b h, List.length_set,
    memReadByte_of_getElem? _ a b (List.getElem?_set_self h), fun _ hc => List.getElem?_set_ne hc.symm⟩

/-- A 16-bit value written inside the frame stands there most significant byte first, is read back whole, and no other
offset changes. -/
theorem memWriteHalf_reads_back (g : List Byte) (a : Nat) (v : Word) (h : a + 2 ≤ g.length) :
    ∃ g', memWriteHalf g a v = .ok g' ∧ g'.length = g.length ∧ memReadByte g' a = .ok (hiByte v) ∧
      memReadByte g' (a + 1) = .ok (loByte v) ∧ memReadHalf g' a = .ok v ∧
      ∀ c, c ≠ a → c ≠ a + 1 → g'[c]? = g[c]? := by
  obtain ⟨g₁, hw₁, hlen₁, hread₁, hframe₁⟩ := memWriteByte_reads_back g a (hiByte v) (by omega)
  obtain ⟨g₂, hw₂, hlen₂, hlo, hframe₂⟩ := memWriteByte_reads_back g₁ (a + 1) (loByte v) (by omega)
  have hhi : memReadByte g₂ a = .ok (hiByte v) := by
    rw [memReadByte_congr g₂ g₁ a (hframe₂ a (by omega)), hread₁]
  have hwrite : memWriteHalf g a v = .ok g₂ := by
    rw [memWriteHalf, hw₁]
    exact hw₂
  have hhalf : memReadHalf g₂ a = .ok v := by
    rw [memReadHalf_of_bytes g₂ a _ _ hhi hlo, beWord_hiByte_loByte]
  exact ⟨g₂, hwrite, hlen₂.trans hlen₁, hhi, hlo, hhalf,
    fun c hc hc₁ => (hframe₂ c hc₁).trans (hframe₁ c hc)⟩

/-! ## The scope's statements on the frame spaces -/

/-- Settles O16: the header writes and then the lanes cover every offset, by `encodeInto_eq_wireFrame`. -/
theorem freshFrameContentUnseen : Obligations.FreshFrameContentUnseen := by
  unfold Obligations.FreshFrameContentUnseen
  exact fun r g => encodeInto_eq_wireFrame g r

/-- Settles O46: a read inside the frame answers the bytes that stand there, one outside it the fault. -/
theorem memReadIsBigEndianOrFaults : Obligations.MemReadIsBigEndianOrFaults := by
  unfold Obligations.MemReadIsBigEndianOrFaults
  intro f a
  have hbyte (c : Nat) (hc : c < f.length) : memReadByte f c = .ok f[c] :=
    memReadByte_of_getElem? f c _ (List.getElem?_eq_getElem hc)
  refine ⟨hbyte a, fun h => memReadByte_outside f a (by omega), fun h => ?_,
    fun h => memReadHalf_outside f a (by omega)⟩
  rw [memReadHalf_of_bytes f a _ _ (hbyte a (by omega)) (hbyte (a + 1) h), beWord_eq_setWidth]

/-- Settles O47: the rules of the two writes. -/
theorem memWriteThenRead : Obligations.MemWriteThenRead := by
  unfold Obligations.MemWriteThenRead
  exact fun g a => ⟨memWriteByte_reads_back g a, memWriteHalf_reads_back g a⟩

end Sys2Proof.Machine
end

section
/-! DECODE does not read past the declared data of a frame that holds it (20_memory.md R50). -/

namespace Sys2Proof.Machine

/-- Steps 4, 5 and 5a read nothing after the declared data. -/
theorem decodeFields_append (cfg : Config) (f extra : List Byte) (bc : Nat) (h : 7 + bc ≤ f.length) :
    decodeFields cfg (f ++ extra) bc = decodeFields cfg f bc := by
  have hext : 7 + bc ≤ (f ++ extra).length := by
    rw [List.length_append]
    omega
  rw [decodeFields_inside cfg (f ++ extra) bc hext, decodeFields_inside cfg f bc h,
    byteAt_append f extra 0 (by omega), halfAt_append f extra 2 (by omega), halfAt_append f extra 4 (by omega),
    wordsAt_append f extra 7 (bc / 2) (by omega)]

/-- DECODE of a frame that holds its declared data reads nothing after it, whether it accepts the frame or not. -/
theorem decodeResult_append (cfg : Config) (f extra : List Byte) (h : 7 + (byteAt f 6).toNat ≤ f.length) :
    decodeResult cfg (f ++ extra) = decodeResult cfg f := by
  have hext : f.length ≤ (f ++ extra).length := by simp
  have hdata : ¬ f.length < 7 + (byteAt f 6).toNat := by omega
  have hdataExt : ¬ (f ++ extra).length < 7 + (byteAt f 6).toNat := by omega
  rw [decodeResult_header cfg (f ++ extra) (by omega), decodeResult_header cfg f (by omega),
    byteAt_append f extra 1 (by omega), byteAt_append f extra 6 (by omega), if_neg hdata, if_neg hdataExt,
    decodeFields_append cfg f extra _ h]

/-- A frame DECODE accepts holds its declared data: steps 1 and 3 reject every other (40_codec.md R95). -/
theorem declaredData_le_length_of_decodeResult_ok (cfg : Config) (f : List Byte) (res : Result)
    (h : decodeResult cfg f = .ok res) (hok : res.code = .ok) : 7 + (byteAt f 6).toNat ≤ f.length := by
  rcases Nat.lt_or_ge f.length 7 with hshort | hheader
  · rw [decodeResult_short cfg f hshort] at h
    cases h
    cases hok
  · rw [decodeResult_header cfg f hheader] at h
    split at h
    case isTrue =>
      cases h
      cases hok
    case isFalse =>
      split at h
      case isTrue =>
        cases h
        cases hok
      case isFalse hdata => exact Nat.le_of_not_lt hdata

theorem exec_decode (f : List Byte) (s : State) : exec (.decode f) s = s.finish (decodeResult s.cfg f) := rfl

/-- Settles O23: an accepted frame holds its declared data, and DECODE reads nothing after that. -/
theorem decodeIgnoresTrailingBytes : Obligations.DecodeIgnoresTrailingBytes := by
  unfold Obligations.DecodeIgnoresTrailingBytes
  intro f extra s t hnext hok
  rw [exec_decode] at hnext
  obtain ⟨res, hres, rfl⟩ := (State.finish_next_iff _ _ _).mp hnext
  rw [State.deliver_code] at hok
  have hdata := declaredData_le_length_of_decodeResult_ok s.cfg f res hres hok
  rw [exec_decode, decodeResult_append s.cfg f extra hdata]
  exact hnext

end Sys2Proof.Machine
end

section
/-! A run, one event at a time: each event writes latches that depend on the event and the configuration alone
(20_memory.md R52, 70_reset_and_hazards.md R151, R158). -/

namespace Sys2Proof.Machine

/-! ## One event -/

/-- The packet decoder's errors write the two latches, with values that do not depend on the state. -/
theorem State.rejectPacket_completes (e : PacketError) :
    ∃ st o, ∀ s : State, s.rejectPacket e = s.complete st o := by
  cases e with
  | unknownCode c => exact ⟨_, _, fun s => State.deliver_raise .illegalCommand .unknownCode 0 c.toNat s⟩
  | badLength expected received =>
    exact ⟨_, _, fun s => State.deliver_raise .illegalCommand .badLength expected received s⟩

theorem issue_packet_of_error (p : List Byte) (e : PacketError) (s : State) (h : decodePacket p = .error e) :
    issue (.packet p) s = .next (s.rejectPacket e) := by
  simp only [issue, issuePacket, h]

/-- Under one configuration an event completes every state with the same STATUS and OUT. -/
theorem issue_completes (e : HostEvent) (cfg : Config) :
    ∃ st o, ∀ s : State, s.cfg = cfg → issue e s = .next (s.complete st o) := by
  cases e with
  | packet p =>
    cases hp : decodePacket p with
    | ok i =>
      obtain ⟨st, o, h⟩ := exec_completes i cfg
      exact ⟨st, o, fun s hs => (issue_packet_of_decode p i s hp).trans (h s hs)⟩
    | error err =>
      obtain ⟨st, o, h⟩ := State.rejectPacket_completes err
      exact ⟨st, o, fun s _ => by rw [issue_packet_of_error p err s hp, h s]⟩
  | command i => exact exec_completes i cfg
  | reset => exact ⟨Status.afterReset, [], fun _ _ => rfl⟩
  | resetInside p => exact ⟨Status.afterReset, [], fun _ _ => rfl⟩

/-! ## A run -/

/-- A run whose first event answers t publishes t's pair, if the event completes a command, and goes on from t. -/
theorem runEvents_cons_of_issue (e : HostEvent) (es : List HostEvent) (s t : State)
    (h : issue e { s with pending := es } = .next t) :
    runEvents (e :: es) s =
      (if e.completes then t.observation :: (runEvents es t).1 else (runEvents es t).1, (runEvents es t).2) := by
  have hstep : step { s with pending := e :: es } = .next t := by
    rw [step_of_pending_cons _ e es rfl]
    exact h
  simp only [runEvents, hstep]

/-- A run ends in a state, with the configuration as it was and nothing pending. -/
theorem runEvents_final (es : List HostEvent) (s : State) :
    ∃ t, (runEvents es s).2 = some t ∧ t.cfg = s.cfg ∧ t.pending = [] := by
  induction es generalizing s with
  | nil => exact ⟨{ s with pending := [] }, rfl, rfl, rfl⟩
  | cons e es ih =>
    obtain ⟨st, o, hissue⟩ := issue_completes e s.cfg
    rw [runEvents_cons_of_issue e es s _ (hissue { s with pending := es } rfl)]
    exact ih (State.complete st o { s with pending := es })

/-- The event, issued on the reset latches under this configuration, answers this pair. -/
def HostEvent.AnswersAlone (cfg : Config) (e : HostEvent) (o : Observation) : Prop :=
  ∃ u, issue e { State.reset with cfg := cfg } = .next u ∧ u.observation = o

/-- The pairs a run publishes are, in order, those its completing events answer alone. -/
theorem runEvents_observations (es : List HostEvent) (s : State) :
    List.Forall₂ (HostEvent.AnswersAlone s.cfg) (es.filter HostEvent.completes) (runEvents es s).1 := by
  induction es generalizing s with
  | nil => exact .nil
  | cons e es ih =>
    obtain ⟨st, o, hissue⟩ := issue_completes e s.cfg
    rw [runEvents_cons_of_issue e es s _ (hissue { s with pending := es } rfl)]
    have hrest := ih (State.complete st o { s with pending := es })
    have halone : e.AnswersAlone s.cfg { status := st, out := o } := ⟨_, hissue _ rfl, rfl⟩
    cases hc : e.completes with
    | true =>
      rw [List.filter_cons_of_pos hc]
      exact .cons halone hrest
    | false =>
      rw [List.filter_cons_of_neg (by simp [hc])]
      exact hrest

/-- Settles O40: the final state and the published pairs, each by induction on the events. -/
theorem runObservesEachCommandAlone : Obligations.RunObservesEachCommandAlone := by
  unfold Obligations.RunObservesEachCommandAlone
  exact fun es s => ⟨runEvents_final es s, runEvents_observations es s⟩

end Sys2Proof.Machine
end

section
/-! The packet decoder: one equation per command code, everything its accepting branches can read, and the verdict on
every other packet (30_encoding.md R64 to R71). -/

namespace Sys2Proof.Machine

/-! ## The decoder by the command code -/

theorem decodePacket_construct (ops : List Byte) :
    decodePacket (0x01 :: ops) = (splitRequest 0 ops).map fun x => .construct x.1.slave x.1.start x.1.data := by
  cases h : splitRequest 0 ops <;> simp [decodePacket, h, bind, Except.bind, Except.map]

theorem decodePacket_encode (ops : List Byte) :
    decodePacket (0x02 :: ops) = (splitRequest 0 ops).map fun x => .encode x.1 := by
  cases h : splitRequest 0 ops <;> simp [decodePacket, h, bind, Except.bind, Except.map]

theorem decodePacket_decode (ops : List Byte) : decodePacket (0x03 :: ops) = (splitFrame ops).map .decode := by
  cases h : splitFrame ops <;> simp [decodePacket, h, bind, Except.bind, Except.map]

theorem decodePacket_validate (ops : List Byte) :
    decodePacket (0x04 :: ops) =
      (splitRequest 4 ops).bind fun x => (readRsp x.2).map fun rsp => .validate x.1 rsp := by
  cases h : splitRequest 4 ops with
  | error e => simp [decodePacket, h, bind, Except.bind]
  | ok x => cases hr : readRsp x.2 <;> simp [decodePacket, h, hr, bind, Except.bind, Except.map]

theorem decodePacket_unknownCode (c : Byte) (ops : List Byte) (h1 : c ≠ 1) (h2 : c ≠ 2) (h3 : c ≠ 3) (h4 : c ≠ 4) :
    decodePacket (c :: ops) = .error (.unknownCode c) := by
  rw [decodePacket, if_neg h1, if_neg h2, if_neg h3, if_neg h4]

/-! ## What follows the code -/

/-- What `splitRequest 0` accepts is REQSER(r) and no byte more. -/
theorem splitRequest_zero_ok (bs : List Byte) (x : Req × List Byte) (h : splitRequest 0 bs = .ok x) :
    x.1.data.length ≤ 255 ∧ bs = reqser x.1 := by
  obtain ⟨r, tail⟩ := x
  obtain ⟨hlen, htail, rfl⟩ := splitRequest_ok 0 bs r tail h
  obtain rfl := List.length_eq_zero_iff.mp htail
  exact ⟨hlen, List.append_nil _⟩

theorem splitRequest_zero_reqser (r : Req) (h : r.data.length ≤ 255) : splitRequest 0 (reqser r) = .ok (r, []) := by
  simpa using splitRequest_reqser r [] h

theorem except_map_eq_ok {ε α β : Type} (f : α → β) (x : Except ε α) (b : β) (h : x.map f = .ok b) :
    ∃ a, x = .ok a ∧ f a = b := by
  cases x with
  | error e => cases h
  | ok a => exact ⟨a, rfl, Except.ok.inj h⟩

theorem except_bind_eq_ok {ε α β : Type} (f : α → Except ε β) (x : Except ε α) (b : β) (h : x.bind f = .ok b) :
    ∃ a, x = .ok a ∧ f a = .ok b := by
  cases x with
  | error e => cases h
  | ok a => exact ⟨a, rfl, h⟩

/-! ## Encoding and decoding agree -/

/-- Settles O1: each command's packet has its own code, and the parts after it are read back. -/
theorem encodedCommandDecodesBack : Obligations.EncodedCommandDecodesBack := by
  unfold Obligations.EncodedCommandDecodesBack
  intro i hwf
  cases i with
  | construct slave start data =>
    have hlen : data.length ≤ 255 := of_decide_eq_true hwf
    rw [encode, decodePacket_construct, splitRequest_zero_reqser _ hlen]
    rfl
  | encode r =>
    have hlen : r.data.length ≤ 255 := of_decide_eq_true hwf
    rw [encode, decodePacket_encode, splitRequest_zero_reqser _ hlen]
    rfl
  | decode f =>
    have hlen : f.length ≤ 65535 := of_decide_eq_true hwf
    rw [encode, decodePacket_decode, splitFrame_encoded f hlen]
    rfl
  | validate r rsp =>
    have hlen : r.data.length ≤ 255 := of_decide_eq_true hwf
    have hsplit : splitRequest 4 (reqser r ++ (beBytes rsp.start ++ beBytes rsp.count)) =
        .ok (r, beBytes rsp.start ++ beBytes rsp.count) := splitRequest_reqser r _ hlen
    rw [encode, decodePacket_validate, hsplit]
    exact congrArg (Except.map _) (readRsp_encoded rsp)

/-- A packet that decodes begins with one of the four codes. -/
theorem decodePacket_ok_code (c : Byte) (ops : List Byte) (i : Instr) (h : decodePacket (c :: ops) = .ok i) :
    c = 1 ∨ c = 2 ∨ c = 3 ∨ c = 4 := by
  by_contra hc
  simp only [not_or] at hc
  obtain ⟨h1, h2, h3, h4⟩ := hc
  rw [decodePacket_unknownCode c ops h1 h2 h3 h4] at h
  cases h

/-- Settles O2: by the code, the parts that were read are all the bytes after it. -/
theorem decodedPacketIsItsEncoding : Obligations.DecodedPacketIsItsEncoding := by
  unfold Obligations.DecodedPacketIsItsEncoding
  intro p i h
  match p, h with
  | c :: ops, h =>
    obtain rfl | rfl | rfl | rfl := decodePacket_ok_code c ops i h
    · rw [decodePacket_construct] at h
      obtain ⟨x, hx, rfl⟩ := except_map_eq_ok _ _ _ h
      obtain ⟨hlen, rfl⟩ := splitRequest_zero_ok ops x hx
      exact ⟨decide_eq_true hlen, rfl⟩
    · rw [decodePacket_encode] at h
      obtain ⟨x, hx, rfl⟩ := except_map_eq_ok _ _ _ h
      obtain ⟨hlen, rfl⟩ := splitRequest_zero_ok ops x hx
      exact ⟨decide_eq_true hlen, rfl⟩
    · rw [decodePacket_decode] at h
      obtain ⟨f, hf, rfl⟩ := except_map_eq_ok _ _ _ h
      obtain ⟨hlen, rfl⟩ := splitFrame_ok ops f hf
      exact ⟨decide_eq_true hlen, rfl⟩
    · rw [decodePacket_validate] at h
      obtain ⟨⟨r, tail⟩, hx, h⟩ := except_bind_eq_ok _ _ _ h
      obtain ⟨rsp, hrsp, rfl⟩ := except_map_eq_ok _ _ _ h
      obtain ⟨hlen, -, rfl⟩ := splitRequest_ok 4 ops r tail hx
      obtain rfl := readRsp_ok tail rsp hrsp
      exact ⟨decide_eq_true hlen, rfl⟩

/-- Settles O6: REQSER is split back with nothing after it, and nothing else is split without a rest. -/
theorem reqserParsesBack : Obligations.ReqserParsesBack := by
  unfold Obligations.ReqserParsesBack
  refine ⟨fun r hlen => ?_, fun p r hparse => ?_⟩
  · simp only [parseReqser, splitRequest_zero_reqser r hlen]
  · unfold parseReqser at hparse
    split at hparse
    case h_1 r' tail hsplit =>
      obtain rfl := Option.some.inj hparse
      exact (splitRequest_zero_ok p _ hsplit).2
    case h_2 => cases hparse

/-- Settles O5: each packet is the encoding of its command, by O1. -/
theorem samplePacketsDecode : Obligations.SamplePacketsDecode := by
  unfold Obligations.SamplePacketsDecode
  exact ⟨encodedCommandDecodesBack (.construct 0x11 0x0001 [0x000A, 0x0102]) rfl,
    encodedCommandDecodesBack (.encode { slave := 0xF7, start := 0xFFFF, data := [0xFFFF, 0x0000, 0x1234] }) rfl,
    encodedCommandDecodesBack
      (.decode [0x11, 0x10, 0x00, 0x01, 0x00, 0x02, 0x04, 0x00, 0x0A, 0x01, 0x02]) rfl,
    encodedCommandDecodesBack
      (.validate { slave := 0x11, start := 0x0001, data := [0x000A, 0x0102] } { start := 0x0001, count := 0x0102 })
      rfl⟩

/-- ILLEGAL_COMMAND / UNKNOWN_CODE in the latches, with the code as the received value (60_exceptions.md R126). -/
theorem State.rejectPacket_unknownCode (c : Byte) (s : State) :
    s.rejectPacket (.unknownCode c) =
      { s with out := [], status := .plain .illegalCommand .unknownCode 0 (c.setWidth 16) } := by
  rw [← BitVec.ofNat_toNat]
  rfl

/-- Settles O9: a code that is none of the four is refused, and the refusal is raised on the latches. -/
theorem unknownCodeIsIllegal : Obligations.UnknownCodeIsIllegal := by
  unfold Obligations.UnknownCodeIsIllegal
  intro s c p rest hpending hc
  have hne (n : Byte) (hn : 1 ≤ n.toNat ∧ n.toNat ≤ 4) : c ≠ n := by
    rintro rfl
    obtain rfl | hc := hc
    · exact absurd hn.1 (by decide)
    · omega
  have hdecode := decodePacket_unknownCode c p (hne 1 (by decide)) (hne 2 (by decide)) (hne 3 (by decide))
    (hne 4 (by decide))
  rw [step_of_pending_cons s _ rest hpending, issue_packet_of_error _ _ _ hdecode, State.rejectPacket_unknownCode]

end Sys2Proof.Machine
end

section
/-! The packet decoder's reads and verdicts by offset (30_encoding.md R69). -/

namespace Sys2Proof.Machine

/-! ## Fields by offset -/

theorem byteAt_drop (f : List Byte) (n a : Nat) : byteAt (f.drop n) a = byteAt f (n + a) := by
  simp [byteAt]

theorem halfAt_drop (f : List Byte) (n a : Nat) : halfAt (f.drop n) a = halfAt f (n + a) := by
  rw [halfAt, byteAt_drop, byteAt_drop]
  rfl

/-- Four bytes are the start address and the count of a response. -/
theorem readRsp_of_length (bs : List Byte) (h : bs.length = 4) :
    readRsp bs = .ok { start := halfAt bs 0, count := halfAt bs 2 } := by
  match bs, h with
  | [_, _, _, _], _ => rfl

/-! ## The parts after the code, by their length -/

theorem splitRequest_of_length (extra : Nat) (a s1 s0 l : Byte) (rest : List Byte)
    (h : rest.length = 2 * l.toNat + extra) :
    splitRequest extra (a :: s1 :: s0 :: l :: rest) =
      .ok ({ slave := a, start := beWord s1 s0, data := wordsAt rest 0 l.toNat }, rest.drop (2 * l.toNat)) := by
  rw [splitRequest, if_pos h, pairWords_eq_wordsAt rest l.toNat (by omega)]

theorem splitRequest_of_short (extra : Nat) (ops : List Byte) (h : ops.length < 4) :
    splitRequest extra ops = .error (.badLength 5 (1 + ops.length)) := by
  match ops, h with
  | [], _ => rfl
  | [_], _ => rfl
  | [_, _], _ => rfl
  | [_, _, _], _ => rfl

theorem splitRequest_of_wrongLength (extra : Nat) (ops : List Byte) (h4 : 4 ≤ ops.length)
    (hne : 1 + ops.length ≠ 5 + extra + 2 * (byteAt ops 3).toNat) :
    splitRequest extra ops = .error (.badLength (5 + extra + 2 * (byteAt ops 3).toNat) (1 + ops.length)) := by
  match ops, h4 with
  | a :: s1 :: s0 :: l :: rest, _ =>
    have hl : byteAt (a :: s1 :: s0 :: l :: rest) 3 = l := rfl
    simp only [hl, List.length_cons] at hne ⊢
    rw [splitRequest, if_neg (by omega)]
    congr 2 <;> omega

theorem splitFrame_of_length (m1 m0 : Byte) (f : List Byte) (h : f.length = (beWord m1 m0).toNat) :
    splitFrame (m1 :: m0 :: f) = .ok f := by
  rw [splitFrame, if_pos h]

theorem splitFrame_of_short (ops : List Byte) (h : ops.length < 2) :
    splitFrame ops = .error (.badLength 3 (1 + ops.length)) := by
  match ops, h with
  | [], _ => rfl
  | [_], _ => rfl

theorem splitFrame_of_wrongLength (ops : List Byte) (h2 : 2 ≤ ops.length)
    (hne : 1 + ops.length ≠ 3 + (halfAt ops 0).toNat) :
    splitFrame ops = .error (.badLength (3 + (halfAt ops 0).toNat) (1 + ops.length)) := by
  match ops, h2 with
  | m1 :: m0 :: f, _ =>
    have hm : halfAt (m1 :: m0 :: f) 0 = beWord m1 m0 := rfl
    simp only [hm, List.length_cons] at hne ⊢
    rw [splitFrame, if_neg (by omega)]
    congr 2
    omega

/-- Where the request of a CONSTRUCT, ENCODE or VALIDATE packet is not split off, the packet decodes to that error. -/
theorem decodePacket_of_splitRequest_error (c : Byte) (ops : List Byte) (e : PacketError)
    (hc : c = 1 ∨ c = 2 ∨ c = 4) (h : splitRequest (if c = 4 then 4 else 0) ops = .error e) :
    decodePacket (c :: ops) = .error e := by
  obtain rfl | rfl | rfl := hc
  · rw [decodePacket_construct, show splitRequest 0 ops = .error e from h]
    rfl
  · rw [decodePacket_encode, show splitRequest 0 ops = .error e from h]
    rfl
  · rw [decodePacket_validate, show splitRequest 4 ops = .error e from h]
    rfl

/-! ## The scope's statements on the packet decoder by offset -/

/-- Settles O3: by the code, each part of the right length is read at its offsets. -/
theorem packetDecoderReadsFields : Obligations.PacketDecoderReadsFields := by
  unfold Obligations.PacketDecoderReadsFields
  intro a s1 s0 l rest
  refine ⟨fun hlen => ⟨?_, ?_⟩, fun hlen => ?_, fun hlen => ?_⟩
  · rw [decodePacket_construct, splitRequest_of_length 0 a s1 s0 l rest hlen]
    rfl
  · rw [decodePacket_encode, splitRequest_of_length 0 a s1 s0 l rest hlen]
    rfl
  · have hm : rest.length = (beWord a s1).toNat := by
      rw [beWord_toNat]
      omega
    rw [decodePacket_decode, splitFrame_of_length a s1 rest hm]
    rfl
  · have htail : (rest.drop (2 * l.toNat)).length = 4 := by
      rw [List.length_drop]
      omega
    have hrsp := readRsp_of_length _ htail
    rw [halfAt_drop, halfAt_drop] at hrsp
    rw [decodePacket_validate, splitRequest_of_length 4 a s1 s0 l rest hlen]
    exact congrArg (Except.map _) hrsp

/-- Settles O4: the code first, then the length of what follows it. -/
theorem packetDecoderRejects : Obligations.PacketDecoderRejects := by
  unfold Obligations.PacketDecoderRejects
  refine ⟨rfl, decodePacket_unknownCode, fun c ops hc hshort => ?_, fun c ops need hc hlong hneed hne => ?_,
    fun ops hshort => ?_, fun ops hlong hne => ?_⟩
  · exact decodePacket_of_splitRequest_error c ops _ hc (splitRequest_of_short _ ops (by omega))
  · have hneed' : need = 5 + (if c = 4 then 4 else 0) + 2 * (byteAt ops 3).toNat := by
      rw [hneed]
      split <;> rfl
    rw [hneed'] at hne ⊢
    exact decodePacket_of_splitRequest_error c ops _ hc (splitRequest_of_wrongLength _ ops (by omega) hne)
  · rw [decodePacket_decode, splitFrame_of_short ops (by omega)]
    rfl
  · rw [decodePacket_decode, splitFrame_of_wrongLength ops (by omega) hne]
    rfl

end Sys2Proof.Machine
end

section
/-! ENCODE by its outcome, and the frame it puts in OUT (30_encoding.md R60, R61). -/

namespace Sys2Proof.Machine

theorem exec_encode (r : Req) (s : State) : exec (.encode r) s = s.finish (encodeResult s.cfg r) := rfl

/-- ENCODE of a valid request computes its frame (40_codec.md R90). -/
theorem encodeResult_of_WF (cfg : Config) (r : Req) (h : r.WF cfg) :
    encodeResult cfg r = .ok (.ok (wireFrame r)) := by
  have hpass : rangeCheck cfg r.numberOfPoints = none := rangeCheck_passes cfg _ h.1 h.2
  have hframe := encodeInto_eq_wireFrame (freshFrame (headerLen + r.byteCount)) r
    (by simp [freshFrame, headerLen, Req.byteCount])
  simp only [encodeResult, hpass, hframe]
  rfl

/-- ENCODE accepts only valid requests. -/
theorem WF_of_encodeResult_ok (cfg : Config) (r : Req) (res : Result) (h : encodeResult cfg r = .ok res)
    (hok : res.code = .ok) : r.WF cfg := by
  obtain ⟨h1, h2, -⟩ | ⟨-, hcheck⟩ | ⟨-, hcheck⟩ := rangeCheck_cases cfg r.numberOfPoints
  · exact ⟨h1, h2⟩
  all_goals
    simp only [encodeResult, hcheck] at h
    cases h
    cases hok

/-- ENCODE of a valid request completes with its frame in OUT. -/
theorem exec_encode_of_WF (r : Req) (s : State) (h : r.WF s.cfg) :
    exec (.encode r) s = .next (s.complete Status.success (wireFrame r)) := by
  rw [exec_encode, encodeResult_of_WF s.cfg r h]
  rfl

/-- Settles O18: an accepted request satisfies WF, so its frame has one to MAX_REGISTERS values. -/
theorem encodedFrameLength : Obligations.EncodedFrameLength := by
  unfold Obligations.EncodedFrameLength
  intro r s t hlegal hnext hok
  obtain ⟨res, hres, rfl⟩ := (State.finish_next_iff _ _ _).mp ((exec_encode r s).symm.trans hnext)
  have hwf := WF_of_encodeResult_ok s.cfg r res hres (by rwa [State.deliver_code] at hok)
  obtain rfl := Except.ok.inj ((encodeResult_of_WF s.cfg r hwf).symm.trans hres)
  rw [State.deliver_ok, State.complete_out, wireFrame_length]
  obtain ⟨hpos, hmax⟩ := hwf
  obtain ⟨-, hmaxLegal⟩ := hlegal
  omega

end Sys2Proof.Machine
end

section
/-! With FC_CHECK = false DECODE does not read byte 1 (30_encoding.md R72). -/

namespace Sys2Proof.Machine

/-! ## A byte set in a frame -/

theorem byteAt_set_ne (f : List Byte) (n a : Nat) (b : Byte) (h : n ≠ a) : byteAt (f.set n b) a = byteAt f a := by
  simp [byteAt, List.getElem?_set_ne h]

theorem halfAt_set_lt (f : List Byte) (n a : Nat) (b : Byte) (h : n < a) : halfAt (f.set n b) a = halfAt f a := by
  rw [halfAt, byteAt_set_ne f n a b (by omega), byteAt_set_ne f n (a + 1) b (by omega)]
  rfl

theorem wordsAt_set_lt (f : List Byte) (n a k : Nat) (b : Byte) (h : n < a) :
    wordsAt (f.set n b) a k = wordsAt f a k :=
  List.map_congr_left fun i _ => halfAt_set_lt f n (a + 2 * i) b (by omega)

/-! ## DECODE without byte 1 -/

/-- Steps 4, 5 and 5a do not read byte 1. -/
theorem decodeFields_set_one (cfg : Config) (f : List Byte) (b : Byte) (bc : Nat) (h : 7 + bc ≤ f.length) :
    decodeFields cfg (f.set 1 b) bc = decodeFields cfg f bc := by
  have hset : 7 + bc ≤ (f.set 1 b).length := by rwa [List.length_set]
  rw [decodeFields_inside cfg (f.set 1 b) bc hset, decodeFields_inside cfg f bc h,
    byteAt_set_ne f 1 0 b (by decide), halfAt_set_lt f 1 2 b (by decide), halfAt_set_lt f 1 4 b (by decide),
    wordsAt_set_lt f 1 7 (bc / 2) b (by decide)]

/-- With FC_CHECK = false no step of DECODE reads byte 1. -/
theorem decodeResult_set_one (cfg : Config) (f : List Byte) (b : Byte) (hfc : cfg.fcCheck = false) :
    decodeResult cfg (f.set 1 b) = decodeResult cfg f := by
  have hnocheck (x : Byte) : ¬ (cfg.fcCheck = true ∧ x ≠ functionCode) := by simp [hfc]
  rcases Nat.lt_or_ge f.length 7 with hshort | hheader
  · have hset : (f.set 1 b).length < 7 := by rwa [List.length_set]
    rw [decodeResult_short cfg _ hset, decodeResult_short cfg f hshort, List.length_set]
  · have hset : 7 ≤ (f.set 1 b).length := by rwa [List.length_set]
    rw [decodeResult_header cfg _ hset, decodeResult_header cfg f hheader, if_neg (hnocheck _),
      if_neg (hnocheck _), byteAt_set_ne f 1 6 b (by decide), List.length_set]
    split
    case isTrue => rfl
    case isFalse hdata => exact decodeFields_set_one cfg f b _ (Nat.le_of_not_lt hdata)

/-- Settles O24: both commands complete with the same result. -/
theorem decodeIgnoresFunctionCodeByte : Obligations.DecodeIgnoresFunctionCodeByte := by
  unfold Obligations.DecodeIgnoresFunctionCodeByte
  intro f b s hfc
  rw [exec_decode, exec_decode, decodeResult_set_one s.cfg f b hfc]

end Sys2Proof.Machine
end

section
/-! Host program lines: what a line answers and what it binds (30_encoding.md R73). -/

namespace Sys2Proof.Machine

/-! ## Binding -/

@[simp] theorem HostEnv.find_cons_self (env : HostEnv) (v : HostVar) (x : HostValue) :
    HostEnv.find ((v, x) :: env) v = some x := if_pos rfl

theorem HostEnv.find_cons_ne (env : HostEnv) (v u : HostVar) (x : HostValue) (h : u ≠ v) :
    HostEnv.find ((v, x) :: env) u = HostEnv.find env u := if_neg h.symm

/-- A line that did not end with CODE = OK leaves its variable without a value. -/
theorem HostLine.bindOut_of_not_ok (l : HostLine) (s : State) (env : HostEnv) (v : HostVar)
    (hv : l.target = some v) (hcode : s.status.code ≠ .ok) : l.bindOut s env = env.unbind v := by
  simp only [HostLine.bindOut, hv, hcode, if_false]

/-- A line that ended with CODE = OK binds its variable to what OUT means to it. -/
theorem HostLine.bindOut_of_ok (l : HostLine) (s : State) (env : HostEnv) (v : HostVar) (x : HostValue)
    (hv : l.target = some v) (hcode : s.status.code = .ok) (hx : l.outValue s.out = some x) :
    l.bindOut s env = (v, x) :: env.unbind v := by
  simp only [HostLine.bindOut, hv, hcode, hx, if_true]

/-! ## One line -/

/-- The session after a line whose packet the block answered with this state. -/
def Session.after (l : HostLine) (h : Session) (s : State) : Session :=
  { block := s, env := l.bindOut s h.env, observed := h.observed ++ [s.observation] }

@[simp] theorem Session.after_env (l : HostLine) (h : Session) (s : State) :
    (h.after l s).env = l.bindOut s h.env := rfl

/-- A line goes on exactly when it has a packet the block answers, to the session that has read its latches. -/
theorem Session.runLine_next_iff (l : HostLine) (h h' : Session) :
    h.runLine l = .ok (.next h') ↔
      ∃ p s, l.assemble h.env = .ok p ∧ issue (.packet p) h.block = .next s ∧ h' = h.after l s := by
  cases hp : l.assemble h.env with
  | error e => simp [Session.runLine, hp, bind, Except.bind]
  | ok p =>
    cases hs : issue (.packet p) h.block <;>
      simp [Session.runLine, hp, hs, bind, Except.bind, Session.after, eq_comm]

/-- The packet of a line that encodes a bound request the port can carry. -/
theorem HostLine.assemble_encode_var (env : HostEnv) (b : Option HostVar) (w : HostVar) (r : Req)
    (hw : env.find w = some (.req r)) (hlen : r.data.length ≤ 255) :
    HostLine.assemble env (.encode b (.var w)) = .ok (Sys2Proof.encode (.encode r)) := by
  have hwf : (Instr.encode r).wellFormed = true := decide_eq_true hlen
  simp [HostLine.assemble, ReqArg.value, hw, packetOf, hwf, bind, Except.bind]

/-- A valid request under a legal configuration fits the port (00_scope.md R9). -/
theorem dataLength_le_of_legal_of_WF (cfg : Config) (r : Req) (hlegal : cfg.legal) (hwf : r.WF cfg) :
    r.data.length ≤ 255 := by
  obtain ⟨-, hmax⟩ := hwf
  obtain ⟨-, hmaxLegal⟩ := hlegal
  omega

/-- A line that encodes a bound valid request: its packet decodes to ENCODE of the request, which completes with the
frame in OUT. -/
theorem Session.runLine_encode_of_WF (h : Session) (b : Option HostVar) (w : HostVar) (r : Req)
    (hlegal : h.block.cfg.legal) (hwf : r.WF h.block.cfg) (hw : h.env.find w = some (.req r)) :
    h.runLine (.encode b (.var w)) =
      .ok (.next (h.after (.encode b (.var w)) (h.block.complete Status.success (wireFrame r)))) := by
  have hlen := dataLength_le_of_legal_of_WF h.block.cfg r hlegal hwf
  have hdecode := encodedCommandDecodesBack (.encode r) (decide_eq_true hlen)
  have hissue := (issue_packet_of_decode _ _ h.block hdecode).trans (exec_encode_of_WF r h.block hwf)
  exact (Session.runLine_next_iff _ _ _).mpr
    ⟨_, _, HostLine.assemble_encode_var h.env b w r hw hlen, hissue, rfl⟩

/-! ## The scope's statements on host lines -/

/-- Settles O49: the line completes with the frame in OUT, and that is what it binds. -/
theorem encodeLineBindsFrame : Obligations.EncodeLineBindsFrame := by
  unfold Obligations.EncodeLineBindsFrame
  intro h r v w hlegal hwf hw
  refine ⟨_, Session.runLine_encode_of_WF h (some v) w r hlegal hwf hw, rfl, ?_, rfl, fun u hu => ?_⟩
  all_goals rw [Session.after_env, HostLine.bindOut_of_ok _ _ h.env v (.frame (wireFrame r)) rfl rfl rfl]
  · exact HostEnv.find_cons_self _ v _
  · rw [HostEnv.find_cons_ne _ v u _ hu, HostEnv.find_unbind_ne _ v u hu]

/-- Settles O50: the session after the line has its variable's binding taken out, and no other. -/
theorem failedLineLeavesVariableUnbound : Obligations.FailedLineLeavesVariableUnbound := by
  unfold Obligations.FailedLineLeavesVariableUnbound
  intro h h' l v hv hrun hcode
  obtain ⟨p, s, -, -, rfl⟩ := (Session.runLine_next_iff l h h').mp hrun
  rw [Session.after_env, HostLine.bindOut_of_not_ok l s h.env v hv hcode]
  exact ⟨HostEnv.find_unbind_self h.env v, HostEnv.find_unbind_ne h.env v⟩

end Sys2Proof.Machine
end

section
/-! DECODE as one verdict on the frame: the first broken rule, or the request the frame carries (40_codec.md R95,
60_exceptions.md R131). -/

namespace Sys2Proof.Machine

/-! ## The verdict -/

/-- The request a frame carries, field by field (30_encoding.md R63). -/
def frameRequest (f : List Byte) : Req :=
  { slave := byteAt f 0, start := halfAt f 2, data := wordsAt f 7 (halfAt f 4).toNat }

@[simp] theorem frameRequest_data_length (f : List Byte) : (frameRequest f).data.length = (halfAt f 4).toNat :=
  wordsAt_length f 7 _

/-- The verdict on the fields of a frame that holds its declared data: steps 4, 5 and 5a. -/
def fieldsVerdict (cfg : Config) (f : List Byte) : Result :=
  if cfg.maxRegisters.toNat < (halfAt f 4).toNat then
    .raise .outOfRange .aboveMax cfg.maxRegisters.toNat (halfAt f 4).toNat
  else if halfAt f 4 = 0 then .raise .outOfRange .belowMin 1 0
  else if (byteAt f 6).toNat ≠ 2 * (halfAt f 4).toNat then
    .raise .malformedFrame .byteCountMismatch (2 * (halfAt f 4).toNat) (byteAt f 6).toNat
  else .ok (reqser (frameRequest f))

/-- The first rule the frame breaks, in the order of 60_exceptions.md R131, or the request it carries. -/
def decodeVerdict (cfg : Config) (f : List Byte) : Result :=
  if f.length < 7 then .raise .malformedFrame .shortHeader 7 f.length
  else if cfg.fcCheck = true ∧ byteAt f 1 ≠ functionCode then
    .raise .malformedFrame .functionCode functionCode.toNat (byteAt f 1).toNat
  else if f.length < 7 + (byteAt f 6).toNat then
    .raise .malformedFrame .shortData (7 + (byteAt f 6).toNat) f.length
  else fieldsVerdict cfg f

theorem halfAt_eq_zero_iff (f : List Byte) (a : Nat) : halfAt f a = 0 ↔ (halfAt f a).toNat = 0 :=
  BitVec.toNat_inj.symm

/-- Where the count is in range, byteCount decides. -/
theorem fieldsVerdict_of_inRange (cfg : Config) (f : List Byte) (hpos : 1 ≤ (halfAt f 4).toNat)
    (hmax : (halfAt f 4).toNat ≤ cfg.maxRegisters.toNat) :
    fieldsVerdict cfg f =
      if (byteAt f 6).toNat ≠ 2 * (halfAt f 4).toNat then
        .raise .malformedFrame .byteCountMismatch (2 * (halfAt f 4).toNat) (byteAt f 6).toNat
      else .ok (reqser (frameRequest f)) := by
  have hne : halfAt f 4 ≠ 0 := fun hzero => Nat.ne_of_gt hpos ((halfAt_eq_zero_iff f 4).mp hzero)
  rw [fieldsVerdict, if_neg (Nat.not_lt.mpr hmax), if_neg hne]

/-- Steps 4, 5 and 5a compute their verdict on a frame that holds its declared data. -/
theorem decodeFields_eq_verdict (cfg : Config) (f : List Byte) (h : 7 + (byteAt f 6).toNat ≤ f.length) :
    decodeFields cfg f (byteAt f 6).toNat = .ok (fieldsVerdict cfg f) := by
  rw [decodeFields_inside cfg f _ h]
  congr 1
  obtain ⟨hpos, hmax, hcheck⟩ | ⟨habove, hcheck⟩ | ⟨hzero, hcheck⟩ := rangeCheck_cases cfg (halfAt f 4).toNat
  · rw [hcheck, fieldsVerdict_of_inRange cfg f hpos hmax]
    refine ite_congr rfl (fun _ => rfl) fun hcount => ?_
    have hhalf : (byteAt f 6).toNat / 2 = (halfAt f 4).toNat := by omega
    rw [hhalf, frameRequest]
  · rw [hcheck, fieldsVerdict, if_pos habove]
  · have hmax : ¬ cfg.maxRegisters.toNat < (halfAt f 4).toNat := by omega
    rw [hcheck, fieldsVerdict, if_neg hmax, if_pos ((halfAt_eq_zero_iff f 4).mpr hzero)]

/-- DECODE computes the verdict, and no read of it falls outside the frame. -/
theorem decodeResult_eq_verdict (cfg : Config) (f : List Byte) : decodeResult cfg f = .ok (decodeVerdict cfg f) := by
  unfold decodeVerdict
  rcases Nat.lt_or_ge f.length 7 with hshort | hheader
  · rw [decodeResult_short cfg f hshort, if_pos hshort]
  · rw [decodeResult_header cfg f hheader, if_neg (Nat.not_lt.mpr hheader)]
    split
    case isTrue => rfl
    case isFalse =>
      split
      case isTrue => rfl
      case isFalse hdata => exact decodeFields_eq_verdict cfg f (Nat.le_of_not_lt hdata)

theorem exec_decode_verdict (f : List Byte) (s : State) :
    exec (.decode f) s = .next (s.deliver (decodeVerdict s.cfg f)) := by
  rw [exec_decode, decodeResult_eq_verdict]
  rfl

/-! ## The frames DECODE accepts -/

/-- The frame breaks no rule of 60_exceptions.md R131. -/
structure FrameOk (cfg : Config) (f : List Byte) : Prop where
  header : 7 ≤ f.length
  codeByte : cfg.fcCheck = true → byteAt f 1 = functionCode
  data : 7 + (byteAt f 6).toNat ≤ f.length
  belowMax : (halfAt f 4).toNat ≤ cfg.maxRegisters.toNat
  aboveMin : halfAt f 4 ≠ 0
  byteCount : (byteAt f 6).toNat = 2 * (halfAt f 4).toNat

theorem decodeVerdict_of_frameOk (cfg : Config) (f : List Byte) (h : FrameOk cfg f) :
    decodeVerdict cfg f = .ok (reqser (frameRequest f)) := by
  have hcode : ¬ (cfg.fcCheck = true ∧ byteAt f 1 ≠ functionCode) := fun ⟨hfc, hne⟩ => hne (h.codeByte hfc)
  rw [decodeVerdict, if_neg (Nat.not_lt.mpr h.header), if_neg hcode, if_neg (Nat.not_lt.mpr h.data),
    fieldsVerdict, if_neg (Nat.not_lt.mpr h.belowMax), if_neg h.aboveMin, if_neg (not_not.mpr h.byteCount)]

/-- Every broken rule gives a CODE other than OK. -/
theorem frameOk_of_decodeVerdict_code (cfg : Config) (f : List Byte) (hok : (decodeVerdict cfg f).code = .ok) :
    FrameOk cfg f := by
  unfold decodeVerdict fieldsVerdict at hok
  split_ifs at hok with hheader hcode hdata hmax hmin hcount
  case neg =>
    exact { header := Nat.le_of_not_lt hheader
            codeByte := fun hfc => not_not.mp fun hne => hcode ⟨hfc, hne⟩
            data := Nat.le_of_not_lt hdata
            belowMax := Nat.le_of_not_lt hmax
            aboveMin := hmin
            byteCount := not_not.mp hcount }
  all_goals cases hok

/-- A frame with no broken rule completes with its request in OUT. -/
theorem exec_decode_of_frameOk (f : List Byte) (s : State) (h : FrameOk s.cfg f) :
    exec (.decode f) s = .next (s.complete Status.success (reqser (frameRequest f))) := by
  rw [exec_decode_verdict, decodeVerdict_of_frameOk s.cfg f h, State.deliver_ok]

/-- DECODE answers CODE = OK on frames with no broken rule alone, with their request in OUT. -/
theorem frameOk_of_exec_decode (f : List Byte) (s t : State) (hnext : exec (.decode f) s = .next t)
    (hok : t.status.code = .ok) : FrameOk s.cfg f ∧ t.out = reqser (frameRequest f) := by
  have hframe : FrameOk s.cfg f := by
    rw [exec_decode_verdict] at hnext
    cases hnext
    exact frameOk_of_decodeVerdict_code s.cfg f (by rwa [State.deliver_code] at hok)
  rw [exec_decode_of_frameOk f s hframe] at hnext
  cases hnext
  exact ⟨hframe, rfl⟩

theorem FrameOk.request_WF {cfg : Config} {f : List Byte} (h : FrameOk cfg f) : (frameRequest f).WF cfg := by
  have hpos : (halfAt f 4).toNat ≠ 0 := fun hzero => h.aboveMin ((halfAt_eq_zero_iff f 4).mpr hzero)
  rw [Req.WF, frameRequest_data_length]
  exact ⟨Nat.pos_of_ne_zero hpos, h.belowMax⟩

/-! ## The scope's statements on DECODE -/

/-- Settles O21: the packet's two length bytes, and the verdict delivered branch by branch. -/
theorem decodeParsesOrReportsFirstBrokenRule : Obligations.DecodeParsesOrReportsFirstBrokenRule := by
  unfold Obligations.DecodeParsesOrReportsFirstBrokenRule
  refine fun f s => ⟨fun hlen => ⟨_, _, ?_, rfl⟩, ?_⟩
  · rw [hiByte_toNat, loByte_toNat, ofNat16_toNat f.length hlen]
    omega
  · rw [exec_decode_verdict]
    simp only [decodeVerdict, fieldsVerdict, apply_ite s.deliver, apply_ite Host.Outcome.next, State.deliver_raise,
      State.deliver_ok, Status.error_eq_plain, BitVec.ofNat_toNat, BitVec.setWidth_eq]
    rfl

/-- Settles O22: the verdict is a result on every frame. -/
theorem decodeStaysInsideFrame : Obligations.DecodeStaysInsideFrame := by
  unfold Obligations.DecodeStaysInsideFrame
  exact fun f s => ⟨_, exec_decode_verdict f s⟩

/-- Settles O25: the request the frame carries, since an accepted frame breaks no rule. -/
theorem decodedRequestIsValid : Obligations.DecodedRequestIsValid := by
  unfold Obligations.DecodedRequestIsValid
  intro f s t hnext hok
  obtain ⟨hframe, hout⟩ := frameOk_of_exec_decode f s t hnext hok
  exact ⟨frameRequest f, hout, hframe.request_WF, frameRequest_data_length f⟩

end Sys2Proof.Machine
end

section
/-! The wire frame and the request it carries determine each other (40_codec.md R97, R99). -/

namespace Sys2Proof.Machine

/-! ## The fields of the frame of a request -/

theorem wireFrame_eq_header_append (r : Req) :
    wireFrame r = [r.slave, functionCode, hiByte r.start, loByte r.start, hiByte (BitVec.ofNat 16 r.data.length),
      loByte (BitVec.ofNat 16 r.data.length), BitVec.ofNat 8 (2 * r.data.length)] ++ dataBytes r.data := by
  rw [dataBytes_eq_flatMap]
  rfl

@[simp] theorem byteAt_wireFrame_slave (r : Req) : byteAt (wireFrame r) 0 = r.slave := rfl
@[simp] theorem byteAt_wireFrame_functionCode (r : Req) : byteAt (wireFrame r) 1 = functionCode := rfl
@[simp] theorem byteAt_wireFrame_byteCount (r : Req) :
    byteAt (wireFrame r) 6 = BitVec.ofNat 8 (2 * r.data.length) := rfl

/-- Up to 127 values byteCount does not wrap. -/
theorem byteAt_wireFrame_byteCount_toNat (r : Req) (h : r.data.length ≤ 127) :
    (byteAt (wireFrame r) 6).toNat = 2 * r.data.length := by
  rw [byteAt_wireFrame_byteCount, ofNat8_toNat _ (by omega)]

@[simp] theorem halfAt_wireFrame_start (r : Req) : halfAt (wireFrame r) 2 = r.start :=
  beWord_hiByte_loByte r.start

@[simp] theorem halfAt_wireFrame_count (r : Req) : halfAt (wireFrame r) 4 = BitVec.ofNat 16 r.data.length :=
  beWord_hiByte_loByte _

theorem wordsAt_wireFrame_data (r : Req) : wordsAt (wireFrame r) 7 r.data.length = r.data := by
  rw [wireFrame_eq_header_append]
  exact wordsAt_dataBytes _ r.data

/-- Up to the port capacity the frame of a request carries that request. -/
theorem frameRequest_wireFrame (r : Req) (h : r.data.length ≤ 255) : frameRequest (wireFrame r) = r := by
  rw [frameRequest, byteAt_wireFrame_slave, halfAt_wireFrame_start, halfAt_wireFrame_count,
    ofNat16_toNat _ (by omega), wordsAt_wireFrame_data]

/-- Under a legal configuration 2N fits the byteCount field (00_scope.md R7). -/
theorem dataLength_le_127_of_WF (cfg : Config) (r : Req) (hlegal : cfg.legal) (hwf : r.WF cfg) :
    r.data.length ≤ 127 := hwf.2.trans hlegal.2

/-- The frame of a valid request breaks no rule of DECODE, whatever FC_CHECK is. -/
theorem frameOk_wireFrame (cfg : Config) (r : Req) (hlegal : cfg.legal) (hwf : r.WF cfg) :
    FrameOk cfg (wireFrame r) := by
  have hsmall := dataLength_le_127_of_WF cfg r hlegal hwf
  have hbytes := byteAt_wireFrame_byteCount_toNat r hsmall
  have hcount : (halfAt (wireFrame r) 4).toNat = r.data.length := by
    rw [halfAt_wireFrame_count, ofNat16_toNat _ (by omega)]
  obtain ⟨hpos, hmax⟩ := hwf
  exact { header := by rw [wireFrame_length]; omega
          codeByte := fun _ => byteAt_wireFrame_functionCode r
          data := by rw [wireFrame_length, hbytes]
          belowMax := by rwa [hcount]
          aboveMin := fun hzero => by rw [halfAt_eq_zero_iff, hcount] at hzero; omega
          byteCount := by rw [hbytes, hcount] }

/-- Settles O26: the frame of a valid request breaks no rule, and carries the request. -/
theorem decodeOfEncodeIsTheRequest : Obligations.DecodeOfEncodeIsTheRequest := by
  unfold Obligations.DecodeOfEncodeIsTheRequest
  intro r s s' hlegal hcfg hwf
  have hlen := dataLength_le_of_legal_of_WF s.cfg r hlegal hwf
  have hdecode := exec_decode_of_frameOk (wireFrame r) s' (hcfg ▸ frameOk_wireFrame s.cfg r hlegal hwf)
  rw [frameRequest_wireFrame r hlen] at hdecode
  exact ⟨_, _, exec_encode_of_WF r s hwf, rfl, hdecode, rfl, rfl, reqserParsesBack.1 r hlen⟩

/-! ## The frame of the request a frame carries -/

theorem drop_eq_byteAt_cons (f : List Byte) (a : Nat) (h : a < f.length) :
    f.drop a = byteAt f a :: f.drop (a + 1) := by
  rw [List.drop_eq_getElem_cons h, byteAt, List.getD_eq_getElem f 0 h]

/-- The five bytes from offset 2 on are the start address, the count and byteCount. -/
theorem drop_two_eq_header (f : List Byte) (h : 7 ≤ f.length) :
    f.drop 2 = byteAt f 2 :: byteAt f 3 :: byteAt f 4 :: byteAt f 5 :: byteAt f 6 :: f.drop 7 := by
  rw [drop_eq_byteAt_cons f 2 (by omega), drop_eq_byteAt_cons f 3 (by omega), drop_eq_byteAt_cons f 4 (by omega),
    drop_eq_byteAt_cons f 5 (by omega), drop_eq_byteAt_cons f 6 (by omega)]

/-- Serializing the request of an accepted frame gives the frame's own header and declared data, with the hardwired
function code. -/
theorem wireFrame_frameRequest (cfg : Config) (f : List Byte) (h : FrameOk cfg f) :
    wireFrame (frameRequest f) = byteAt f 0 :: functionCode :: (f.drop 2).take (5 + (byteAt f 6).toNat) := by
  have hcount : BitVec.ofNat 16 (frameRequest f).data.length = beWord (byteAt f 4) (byteAt f 5) := by
    rw [frameRequest_data_length, BitVec.ofNat_toNat, BitVec.setWidth_eq, halfAt_eq_beWord]
  have hbytes : BitVec.ofNat 8 (2 * (frameRequest f).data.length) = byteAt f 6 := by
    rw [frameRequest_data_length, ← h.byteCount, BitVec.ofNat_toNat, BitVec.setWidth_eq]
  have hdata : dataBytes (frameRequest f).data = (f.drop 7).take (byteAt f 6).toNat := by
    rw [h.byteCount]
    exact dataBytes_wordsAt f 7 _ (h.byteCount ▸ h.data)
  have hstart : (frameRequest f).start = beWord (byteAt f 2) (byteAt f 3) := rfl
  rw [wireFrame_eq_header_append, hcount, hbytes, hdata, hstart, hiByte_beWord, loByte_beWord, hiByte_beWord,
    loByte_beWord, drop_two_eq_header f h.header, Nat.add_comm 5]
  rfl

/-- With FC_CHECK = true byte 1 of an accepted frame is the function code already. -/
theorem take_eq_of_frameOk (cfg : Config) (f : List Byte) (h : FrameOk cfg f) (hfc : cfg.fcCheck = true) :
    f.take (7 + (byteAt f 6).toNat) = byteAt f 0 :: functionCode :: (f.drop 2).take (5 + (byteAt f 6).toNat) := by
  have hheader := h.header
  have hsplit : f = byteAt f 0 :: byteAt f 1 :: f.drop 2 := by
    rw [← drop_eq_byteAt_cons f 1 (by omega), ← drop_eq_byteAt_cons f 0 (by omega), List.drop_zero]
  have hlen : 7 + (byteAt f 6).toNat = 5 + (byteAt f 6).toNat + 1 + 1 := by omega
  calc f.take (7 + (byteAt f 6).toNat)
      = (byteAt f 0 :: byteAt f 1 :: f.drop 2).take (7 + (byteAt f 6).toNat) := congrArg (List.take _) hsplit
    _ = byteAt f 0 :: functionCode :: (f.drop 2).take (5 + (byteAt f 6).toNat) := by
      rw [hlen, List.take_succ_cons, List.take_succ_cons, h.codeByte hfc]

/-- Settles O27: REQSER is injective, so r is the request the frame carries, and serializing that gives the frame back. -/
theorem encodeOfDecodeIsTheFrame : Obligations.EncodeOfDecodeIsTheFrame := by
  unfold Obligations.EncodeOfDecodeIsTheFrame
  intro f r s s' t _ hcfg hnext hok hout
  obtain ⟨hframe, hrequest⟩ := frameOk_of_exec_decode f s t hnext hok
  obtain rfl : r = frameRequest f := reqser_injective r _ (hout.symm.trans hrequest)
  have hwire := wireFrame_frameRequest s.cfg f hframe
  exact ⟨_, exec_encode_of_WF _ s' (hcfg ▸ hframe.request_WF), rfl, hwire,
    fun hfc => hwire.trans (take_eq_of_frameOk s.cfg f hframe hfc).symm⟩

end Sys2Proof.Machine
end

section
/-! CONSTRUCT and ENCODE share the range check: what each answers by its verdict (40_codec.md R80, R85, R90). -/

namespace Sys2Proof.Machine

/-! ## CONSTRUCT and ENCODE by the range check -/

theorem rangeCheck_of_eq_zero (cfg : Config) (n : Nat) (h : n = 0) :
    rangeCheck cfg n = some (.raise .outOfRange .belowMin 1 0) := by
  rw [h, rangeCheck_below]

theorem inRange_of_rangeCheck_none (cfg : Config) (n : Nat) (h : rangeCheck cfg n = none) :
    1 ≤ n ∧ n ≤ cfg.maxRegisters.toNat := by
  obtain ⟨hpos, hmax, -⟩ | ⟨-, hcheck⟩ | ⟨-, hcheck⟩ := rangeCheck_cases cfg n
  · exact ⟨hpos, hmax⟩
  all_goals cases h.symm.trans hcheck

theorem exec_construct (slave : Byte) (start : Word) (data : List Word) (s : State) :
    exec (.construct slave start data) s = .next (s.deliver (constructResult s.cfg slave start data)) := rfl

/-- CONSTRUCT of valid operands completes with their request in OUT. -/
theorem exec_construct_of_inRange (slave : Byte) (start : Word) (data : List Word) (s : State)
    (h : rangeCheck s.cfg data.length = none) :
    exec (.construct slave start data) s =
      .next (s.complete Status.success (reqser { slave := slave, start := start, data := data })) := by
  rw [exec_construct]
  simp only [constructResult, h, State.deliver_ok]

/-- CONSTRUCT delivers the error of the range check. -/
theorem exec_construct_of_rangeError (slave : Byte) (start : Word) (data : List Word) (s : State) (e : Result)
    (h : rangeCheck s.cfg data.length = some e) : exec (.construct slave start data) s = .next (s.deliver e) := by
  rw [exec_construct]
  simp only [constructResult, h]

/-- ENCODE delivers the error of the range check, before it writes any byte. -/
theorem exec_encode_of_rangeError (r : Req) (s : State) (e : Result) (h : rangeCheck s.cfg r.data.length = some e) :
    exec (.encode r) s = .next (s.deliver e) := by
  rw [exec_encode]
  simp only [encodeResult, Req.numberOfPoints, h, State.finish]

/-- ENCODE does not read FC_CHECK (40_codec.md R90). -/
theorem encodeResult_set_fcCheck (cfg : Config) (r : Req) (b : Bool) :
    encodeResult { cfg with fcCheck := b } r = encodeResult cfg r := rfl

/-- ENCODE answers CODE = OK to valid requests alone, with their frame in OUT. -/
theorem WF_of_exec_encode (r : Req) (s t : State) (hnext : exec (.encode r) s = .next t)
    (hok : t.status.code = .ok) : r.WF s.cfg ∧ t.out = wireFrame r := by
  obtain ⟨res, hres, rfl⟩ := (State.finish_next_iff _ _ _).mp ((exec_encode r s).symm.trans hnext)
  have hwf := WF_of_encodeResult_ok s.cfg r res hres (by rwa [State.deliver_code] at hok)
  rw [exec_encode_of_WF r s hwf] at hnext
  exact ⟨hwf, (congrArg State.out (Host.Outcome.next.inj hnext)).symm⟩

/-! ## The range errors in the latches -/

theorem deliver_aboveMax (s : State) (n : Nat) :
    s.deliver (.raise .outOfRange .aboveMax s.cfg.maxRegisters.toNat n) =
      { s with status := .plain .outOfRange .aboveMax (s.cfg.maxRegisters.setWidth 16) (BitVec.ofNat 16 n),
               out := [] } := by
  rw [State.deliver_raise, Status.error_eq_plain, BitVec.ofNat_toNat]
  rfl

theorem deliver_belowMin (s : State) :
    s.deliver (.raise .outOfRange .belowMin 1 0) =
      { s with status := .plain .outOfRange .belowMin 1 0, out := [] } := rfl

/-! ## The scope's statements on CONSTRUCT, ENCODE and the range check -/

/-- Settles O48, verdict by verdict. -/
theorem rangeCheckVerdicts : Obligations.RangeCheckVerdicts := by
  unfold Obligations.RangeCheckVerdicts
  exact fun cfg n _ => ⟨rangeCheck_above cfg n, rangeCheck_of_eq_zero cfg n, rangeCheck_passes cfg n⟩

/-- Settles O13, by the verdict of the range check. -/
theorem constructBuildsOrRejects : Obligations.ConstructBuildsOrRejects := by
  unfold Obligations.ConstructBuildsOrRejects
  refine fun slave start data s => ⟨rfl, fun hpos hmax => ?_, fun habove => ?_, fun hzero => ?_⟩
  · rw [exec_construct_of_inRange slave start data s (rangeCheck_passes s.cfg _ hpos hmax), reqser,
      dataBytes_eq_flatMap]
    rfl
  · rw [exec_construct_of_rangeError slave start data s _ (rangeCheck_above s.cfg _ habove), deliver_aboveMax]
  · rw [exec_construct_of_rangeError slave start data s _ (rangeCheck_of_eq_zero s.cfg _ hzero), deliver_belowMin]

/-- Settles O14, by the verdict of the range check. -/
theorem encodeSerializesOrRejects : Obligations.EncodeSerializesOrRejects := by
  unfold Obligations.EncodeSerializesOrRejects
  refine fun r s => ⟨rfl, fun hpos hmax => exec_encode_of_WF r s ⟨hpos, hmax⟩, fun habove => ?_, fun hzero => ?_⟩
  · rw [exec_encode_of_rangeError r s _ (rangeCheck_above s.cfg _ habove), deliver_aboveMax]
  · rw [exec_encode_of_rangeError r s _ (rangeCheck_of_eq_zero s.cfg _ hzero), deliver_belowMin]

/-- Settles O19: both commands deliver one verdict of the range check. -/
theorem constructAndEncodeAgree : Obligations.ConstructAndEncodeAgree := by
  unfold Obligations.ConstructAndEncodeAgree
  intro slave start data s
  cases hcheck : rangeCheck s.cfg data.length with
  | none =>
    have hencode := exec_encode_of_WF { slave := slave, start := start, data := data } s
      (inRange_of_rangeCheck_none s.cfg _ hcheck)
    exact ⟨_, _, exec_construct_of_inRange slave start data s hcheck, hencode, Iff.rfl, fun _ => rfl⟩
  | some e =>
    exact ⟨_, _, exec_construct_of_rangeError slave start data s e hcheck,
      exec_encode_of_rangeError { slave := slave, start := start, data := data } s e hcheck, Iff.rfl, fun _ => rfl⟩

/-- Settles O20: the same result completes both states. -/
theorem encodeIgnoresFcCheck : Obligations.EncodeIgnoresFcCheck := by
  unfold Obligations.EncodeIgnoresFcCheck
  intro r s b
  obtain ⟨st, o, hcompletes⟩ := State.finish_completes _ (encodeResult_answers s.cfg r)
  have hother := hcompletes { s with cfg := { s.cfg with fcCheck := b } }
  rw [← encodeResult_set_fcCheck s.cfg r b] at hother
  exact ⟨_, _, hcompletes s, hother, rfl, rfl⟩

/-- Settles O15: the frame is a header of seven bytes followed by the register data. -/
theorem encodePacksEveryLane : Obligations.EncodePacksEveryLane := by
  unfold Obligations.EncodePacksEveryLane
  intro r s t hwf hnext
  rw [exec_encode_of_WF r s hwf] at hnext
  cases hnext
  refine ⟨wireFrame_length r, fun i hi => ?_⟩
  rw [State.complete_out, Nat.add_comm 7, Nat.add_comm 8, wireFrame_eq_header_append]
  exact dataBytes_getElem? r.data i hi

/-- Settles O17: an accepted request has at most 127 values, so no field of its frame wraps. -/
theorem encodedByteCountConsistent : Obligations.EncodedByteCountConsistent := by
  unfold Obligations.EncodedByteCountConsistent
  intro r s t hlegal hnext hok
  obtain ⟨hwf, hout⟩ := WF_of_exec_encode r s t hnext hok
  have hbytes := (frameOk_wireFrame s.cfg r hlegal hwf).byteCount
  rw [halfAt_eq_beWord, beWord_toNat] at hbytes
  have hlen := byteAt_wireFrame_byteCount_toNat r (dataLength_le_127_of_WF s.cfg r hlegal hwf)
  rw [hout]
  exact ⟨hbytes, by rw [wireFrame_length, hlen]⟩

end Sys2Proof.Machine
end

section
/-! VALIDATE: the STATUS it writes, as a function of the start addresses and the counts alone (41_validator.md R111 to
R114). -/

namespace Sys2Proof.Machine

/-! ## What VALIDATE does -/

theorem exec_validate (r : Req) (rsp : Rsp) (s : State) :
    exec (.validate r rsp) s = .next (s.complete (validateStatus r rsp) []) := rfl

/-- CODE is named by the first failing check, start address before count (60_exceptions.md R132). -/
theorem validateStatus_code (r : Req) (rsp : Rsp) :
    (validateStatus r rsp).code =
      if r.start ≠ rsp.start then .unexpectedStartAddress
      else if r.data.length ≠ rsp.count.toNat then .unexpectedNumberOfPoints
      else .ok := by
  unfold validateStatus validateResult Req.numberOfPoints
  split_ifs <;> rfl

theorem validateStatus_mmStart (r : Req) (rsp : Rsp) :
    (validateStatus r rsp).mmStart = decide (r.start ≠ rsp.start) := rfl

theorem validateStatus_mmCount (r : Req) (rsp : Rsp) :
    (validateStatus r rsp).mmCount = decide (r.data.length ≠ rsp.count.toNat) := rfl

/-! ## One comparison against the other -/

theorem validateStatus_mmStart_eq_false_iff (r : Req) (rsp : Rsp) :
    (validateStatus r rsp).mmStart = false ↔ r.start = rsp.start := by
  rw [validateStatus_mmStart, decide_eq_false_iff_not, not_not]

theorem validateStatus_mmCount_eq_false_iff (r : Req) (rsp : Rsp) :
    (validateStatus r rsp).mmCount = false ↔ r.data.length = rsp.count.toNat := by
  rw [validateStatus_mmCount, decide_eq_false_iff_not, not_not]

/-- A different start address names the code, whatever the counts are. -/
theorem validateStatus_code_of_start_ne (r : Req) (rsp : Rsp) (h : r.start ≠ rsp.start) :
    (validateStatus r rsp).code = .unexpectedStartAddress := by
  rw [validateStatus_code, if_pos h]

/-- A different count names the code when the start addresses agree. -/
theorem validateStatus_code_of_count_ne (r : Req) (rsp : Rsp) (hstart : r.start = rsp.start)
    (h : r.data.length ≠ rsp.count.toNat) : (validateStatus r rsp).code = .unexpectedNumberOfPoints := by
  rw [validateStatus_code, if_neg (not_not.mpr hstart), if_pos h]

theorem validateStatus_code_eq_ok_iff (r : Req) (rsp : Rsp) :
    (validateStatus r rsp).code = .ok ↔ r.start = rsp.start ∧ r.data.length = rsp.count.toNat := by
  by_cases hstart : r.start = rsp.start
  · by_cases hcount : r.data.length = rsp.count.toNat
    · simp [validateStatus_code, hstart, hcount]
    · simp [validateStatus_code_of_count_ne r rsp hstart hcount, hcount]
  · simp [validateStatus_code_of_start_ne r rsp hstart, hstart]

/-- VALIDATE sees a request through its start address and its number of values (41_validator.md R112, R113). -/
theorem validateStatus_congr (r r' : Req) (rsp : Rsp) (hstart : r.start = r'.start)
    (hcount : r.data.length = r'.data.length) : validateStatus r rsp = validateStatus r' rsp := by
  unfold validateStatus validateResult Req.numberOfPoints
  rw [hstart, hcount]

/-! ## The scope's statements on VALIDATE -/

/-- Settles O28: VALIDATE completes the state with its STATUS, whose CODE is `validateStatus_code`. -/
theorem validateComparesBothFields : Obligations.ValidateComparesBothFields := by
  unfold Obligations.ValidateComparesBothFields
  refine fun r rsp s => ⟨rfl, ?_⟩
  rw [exec_validate, ← validateStatus_code]
  rfl

/-- Settles O29, law by law: each comparison has its flag, and the first that fails names the code. -/
theorem validatorLaws : Obligations.ValidatorLaws := by
  unfold Obligations.ValidatorLaws
  refine fun r rsp s => ⟨_, exec_validate r rsp s, ?agreement, ?startDiffers, ?countDiffers, ?completeness⟩
  case agreement =>
    exact fun hstart hcount => (validateStatus_code_eq_ok_iff r rsp).mpr ⟨hstart.symm, hcount.symm⟩
  case startDiffers =>
    exact fun hstart hcount => ⟨validateStatus_code_of_start_ne r rsp hstart.symm, decide_eq_true hstart.symm,
      (validateStatus_mmCount_eq_false_iff r rsp).mpr hcount.symm, rfl, rfl⟩
  case countDiffers =>
    exact fun hstart hcount => ⟨validateStatus_code_of_count_ne r rsp hstart.symm hcount.symm,
      (validateStatus_mmStart_eq_false_iff r rsp).mpr hstart.symm, decide_eq_true hcount.symm, rfl, rfl⟩
  case completeness =>
    rw [State.complete_status, validateStatus_code_eq_ok_iff, validateStatus_mmStart_eq_false_iff,
      validateStatus_mmCount_eq_false_iff]

/-- Settles O30: both states are completed with one STATUS and an empty OUT. -/
theorem validateReadsNothingElse : Obligations.ValidateReadsNothingElse := by
  unfold Obligations.ValidateReadsNothingElse
  intro r r' rsp s s' hstart hcount
  exact ⟨_, _, exec_validate r rsp s, exec_validate r' rsp s', validateStatus_congr r r' rsp hstart hcount, rfl⟩

end Sys2Proof.Machine
end

section
/-! Every refusal of the packet decoder, from its parts: an unknown code, or a length other than the expected one
(60_exceptions.md R125, R130). -/

namespace Sys2Proof.Machine

/-! ## The refusals -/

/-- BAD_LENGTH against the length n the packet has. -/
def IsBadLengthOf (n : Nat) (e : PacketError) : Prop := ∃ expected, expected ≠ n ∧ e = .badLength expected n

theorem splitRequest_error (extra : Nat) (ops : List Byte) (e : PacketError) (h : splitRequest extra ops = .error e) :
    IsBadLengthOf (1 + ops.length) e := by
  rcases Nat.lt_or_ge ops.length 4 with hshort | hlong
  · rw [splitRequest_of_short extra ops hshort] at h
    exact ⟨5, by omega, (Except.error.inj h).symm⟩
  · match ops, hlong with
    | a :: s1 :: s0 :: l :: rest, _ =>
      by_cases hlen : rest.length = 2 * l.toNat + extra
      · cases (splitRequest_of_length extra a s1 s0 l rest hlen).symm.trans h
      · have hne : 1 + (a :: s1 :: s0 :: l :: rest).length ≠ 5 + extra + 2 * l.toNat := by
          simp only [List.length_cons]
          omega
        have hwrong := splitRequest_of_wrongLength extra (a :: s1 :: s0 :: l :: rest) (by simp) hne
        exact ⟨_, hne.symm, Except.error.inj (h.symm.trans hwrong)⟩

theorem splitFrame_error (ops : List Byte) (e : PacketError) (h : splitFrame ops = .error e) :
    IsBadLengthOf (1 + ops.length) e := by
  rcases Nat.lt_or_ge ops.length 2 with hshort | hlong
  · rw [splitFrame_of_short ops hshort] at h
    exact ⟨3, by omega, (Except.error.inj h).symm⟩
  · match ops, hlong with
    | m1 :: m0 :: f, _ =>
      by_cases hlen : f.length = (beWord m1 m0).toNat
      · cases (splitFrame_of_length m1 m0 f hlen).symm.trans h
      · have hne : 1 + (m1 :: m0 :: f).length ≠ 3 + (beWord m1 m0).toNat := by
          simp only [List.length_cons]
          omega
        have hwrong := splitFrame_of_wrongLength (m1 :: m0 :: f) (by simp) hne
        exact ⟨_, hne.symm, Except.error.inj (h.symm.trans hwrong)⟩

theorem except_map_eq_error {ε α β : Type} (f : α → β) (x : Except ε α) (e : ε) (h : x.map f = .error e) :
    x = .error e := by
  cases x with
  | error e' => exact congrArg Except.error (Except.error.inj h)
  | ok a => cases h

theorem except_bind_eq_error {ε α β : Type} (f : α → Except ε β) (x : Except ε α) (e : ε) (h : x.bind f = .error e) :
    x = .error e ∨ ∃ a, x = .ok a ∧ f a = .error e := by
  cases x with
  | error e' => exact .inl (congrArg Except.error (Except.error.inj h))
  | ok a => exact .inr ⟨a, rfl, h⟩

/-- What follows the request of a VALIDATE packet is always a response: `splitRequest 4` hands over four bytes. -/
theorem readRsp_of_splitRequest (ops : List Byte) (x : Req × List Byte) (h : splitRequest 4 ops = .ok x) :
    ∃ rsp, readRsp x.2 = .ok rsp := by
  obtain ⟨r, tail⟩ := x
  obtain ⟨-, htail, -⟩ := splitRequest_ok 4 ops r tail h
  exact ⟨_, readRsp_of_length tail htail⟩

/-- A packet with one of the four codes is refused for its length alone. -/
theorem decodePacket_error_of_knownCode (c : Byte) (ops : List Byte) (e : PacketError)
    (hc : c = 1 ∨ c = 2 ∨ c = 3 ∨ c = 4) (h : decodePacket (c :: ops) = .error e) :
    IsBadLengthOf (1 + ops.length) e := by
  obtain rfl | rfl | rfl | rfl := hc
  · rw [decodePacket_construct] at h
    exact splitRequest_error 0 ops e (except_map_eq_error _ _ _ h)
  · rw [decodePacket_encode] at h
    exact splitRequest_error 0 ops e (except_map_eq_error _ _ _ h)
  · rw [decodePacket_decode] at h
    exact splitFrame_error ops e (except_map_eq_error _ _ _ h)
  · rw [decodePacket_validate] at h
    obtain hsplit | ⟨x, hsplit, hrsp⟩ := except_bind_eq_error _ _ _ h
    · exact splitRequest_error 4 ops e hsplit
    · obtain ⟨rsp, hread⟩ := readRsp_of_splitRequest ops x hsplit
      cases hread.symm.trans (except_map_eq_error _ _ _ hrsp)

/-- Every refusal of the packet decoder: a code that is none of the four, or a length other than the expected one. -/
theorem decodePacket_error_cases (p : List Byte) (e : PacketError) (h : decodePacket p = .error e) :
    (∃ c, (c ≠ 1 ∧ c ≠ 2 ∧ c ≠ 3 ∧ c ≠ 4) ∧ e = .unknownCode c) ∨ IsBadLengthOf p.length e := by
  match p, h with
  | [], h => exact .inr ⟨1, by decide, (Except.error.inj h).symm⟩
  | c :: ops, h =>
    by_cases hc : c = 1 ∨ c = 2 ∨ c = 3 ∨ c = 4
    · rw [List.length_cons, Nat.add_comm]
      exact .inr (decodePacket_error_of_knownCode c ops e hc h)
    · simp only [not_or] at hc
      obtain ⟨h1, h2, h3, h4⟩ := hc
      rw [decodePacket_unknownCode c ops h1 h2 h3 h4] at h
      exact .inl ⟨c, ⟨h1, h2, h3, h4⟩, (Except.error.inj h).symm⟩

/-! ## The wrong length in the latches -/

/-- ILLEGAL_COMMAND / BAD_LENGTH in the latches, both lengths modulo 2^16 (10_state.md R29). -/
theorem State.rejectPacket_badLength (expected received : Nat) (s : State) :
    s.rejectPacket (.badLength expected received) =
      { s with out := [], status := .plain .illegalCommand .badLength (BitVec.ofNat 16 expected)
                                      (BitVec.ofNat 16 received) } := rfl

/-- Settles O10: a BAD_LENGTH refusal carries the packet's own length, and is raised on the latches. -/
theorem badLengthIsIllegal : Obligations.BadLengthIsIllegal := by
  unfold Obligations.BadLengthIsIllegal
  intro s p rest expected received hpending hdecode
  obtain ⟨c, -, hcode⟩ | ⟨n, hne, hlength⟩ := decodePacket_error_cases p _ hdecode
  · cases hcode
  · cases hlength
    refine ⟨rfl, hne, ?_⟩
    rw [step_of_pending_cons s _ rest hpending, issue_packet_of_error _ _ _ hdecode, State.rejectPacket_badLength]

end Sys2Proof.Machine
end

section
/-! The frame of a command and of a step: both complete the state, so only STATUS and OUT change
(10_state.md R25, R32; 60_exceptions.md R128, R134, R135). -/

namespace Sys2Proof.Machine

/-- An outcome answers one next state. -/
theorem next_unique {x : Host.Outcome State Fault Refusal} {t u : State} (ht : x = .next t) (hu : x = .next u) :
    t = u := Host.Outcome.next.inj (ht.symm.trans hu)

/-- Settles O33: a command completes the state. -/
theorem commandsChangeOnlyTheLatches : Obligations.CommandsChangeOnlyTheLatches := by
  unfold Obligations.CommandsChangeOnlyTheLatches
  intro i s
  obtain ⟨st, o, hexec⟩ := exec_completes i s.cfg
  exact ⟨s.complete st o, hexec s rfl, rfl, rfl⟩

/-- Settles O34: idle with nothing pending; otherwise the first event completes the state without it. -/
theorem everyStepAnswers : Obligations.EveryStepAnswers := by
  unfold Obligations.EveryStepAnswers
  intro s
  cases hpending : s.pending with
  | nil => exact ⟨s, step_of_pending_nil s hpending, rfl, hpending⟩
  | cons e rest =>
    obtain ⟨st, o, hissue⟩ := issue_completes e s.cfg
    exact ⟨_, (step_of_pending_cons s e rest hpending).trans (hissue { s with pending := rest } rfl), rfl, rfl⟩

/-- Settles O37: under one configuration both issues complete with one pair, and the second completion is the one that
stays. -/
theorem reissuedCommandRepeats : Obligations.ReissuedCommandRepeats := by
  unfold Obligations.ReissuedCommandRepeats
  intro i s t hnext
  obtain ⟨st, o, hexec⟩ := exec_completes i s.cfg
  obtain rfl := next_unique (hexec s rfl) hnext
  rw [hexec _ (State.complete_cfg st o s), State.complete_complete]

end Sys2Proof.Machine
end

section
/-! Everything CONSTRUCT, ENCODE and DECODE can answer, each error with its row of the table (60_exceptions.md R121 to
R128). -/

namespace Sys2Proof.Machine

/-! ## The rows of the table that an error fills in -/

theorem Status.plain_isRow_aboveMax (cfg : Config) (exp rcv : Word) :
    (Status.plain .outOfRange .aboveMax exp rcv).isRow cfg ↔ exp.toNat = cfg.maxRegisters.toNat := by
  simp [Status.isRow, Status.plain]

theorem Status.plain_isRow_belowMin (cfg : Config) (exp rcv : Word) :
    (Status.plain .outOfRange .belowMin exp rcv).isRow cfg ↔ exp = 1 ∧ rcv = 0 := by
  simp [Status.isRow, Status.plain]

theorem Status.plain_isRow_shortHeader (cfg : Config) (exp rcv : Word) :
    (Status.plain .malformedFrame .shortHeader exp rcv).isRow cfg ↔ exp = 7 ∧ rcv.toNat < 7 := by
  simp [Status.isRow, Status.plain]

theorem Status.plain_isRow_functionCode (cfg : Config) (exp rcv : Word) :
    (Status.plain .malformedFrame .functionCode exp rcv).isRow cfg ↔
      cfg.fcCheck = true ∧ exp = 0x10 ∧ rcv ≠ 0x10 ∧ rcv.toNat < 256 := by
  simp [Status.isRow, Status.plain]

theorem Status.plain_isRow_shortData (cfg : Config) (exp rcv : Word) :
    (Status.plain .malformedFrame .shortData exp rcv).isRow cfg ↔
      7 ≤ rcv.toNat ∧ rcv.toNat < exp.toNat ∧ exp.toNat ≤ 262 := by
  simp [Status.isRow, Status.plain]

theorem Status.plain_isRow_byteCountMismatch (cfg : Config) (exp rcv : Word) :
    (Status.plain .malformedFrame .byteCountMismatch exp rcv).isRow cfg ↔
      exp ≠ rcv ∧ 2 ≤ exp.toNat ∧ exp.toNat ≤ 2 * cfg.maxRegisters.toNat ∧ exp.toNat % 2 = 0 ∧ rcv.toNat < 256 := by
  simp [Status.isRow, Status.plain]

theorem Status.plain_isRow_unknownCode (cfg : Config) (exp rcv : Word) :
    (Status.plain .illegalCommand .unknownCode exp rcv).isRow cfg ↔
      exp = 0 ∧ rcv.toNat < 256 ∧ rcv ≠ 1 ∧ rcv ≠ 2 ∧ rcv ≠ 3 ∧ rcv ≠ 4 := by
  simp [Status.isRow, Status.plain]

theorem Status.plain_isRow_badLength (cfg : Config) (exp rcv : Word) :
    (Status.plain .illegalCommand .badLength exp rcv).isRow cfg := by
  simp [Status.isRow, Status.plain]

/-! ## What a codec command can answer -/

/-- A result CONSTRUCT, ENCODE or DECODE can have: an output no longer than the longest frame, or an error of a kind
the command can raise, with the context of its row. -/
inductive CodecAnswer (cfg : Config) (i : Instr) : Result → Prop
  | done (o : List Byte) (hshort : o.length ≤ 7 + 2 * cfg.maxRegisters.toNat) : CodecAnswer cfg i (.ok o)
  | raised (c : Code) (sb : Sub) (exp rcv : Nat)
      (hcode : c = .outOfRange ∨ c = .malformedFrame ∧ ∃ f, i = .decode f)
      (hrow : (Status.plain c sb (BitVec.ofNat 16 exp) (BitVec.ofNat 16 rcv)).isRow cfg) :
      CodecAnswer cfg i (.raise c sb exp rcv)

/-- REQSER of a request is shorter than its frame (30_encoding.md R61, R64). -/
theorem CodecAnswer.reqser (cfg : Config) (i : Instr) (r : Req) (h : r.data.length ≤ cfg.maxRegisters.toNat) :
    CodecAnswer cfg i (.ok (reqser r)) := .done _ (by rw [reqser_length]; omega)

theorem CodecAnswer.aboveMax (cfg : Config) (i : Instr) (n : Nat) :
    CodecAnswer cfg i (.raise .outOfRange .aboveMax cfg.maxRegisters.toNat n) := by
  refine .raised _ _ _ _ (.inl rfl) ((Status.plain_isRow_aboveMax _ _ _).mpr (ofNat16_toNat _ ?_))
  have hbyte := cfg.maxRegisters.isLt
  omega

theorem CodecAnswer.belowMin (cfg : Config) (i : Instr) : CodecAnswer cfg i (.raise .outOfRange .belowMin 1 0) :=
  .raised _ _ _ _ (.inl rfl) ((Status.plain_isRow_belowMin _ _ _).mpr ⟨rfl, rfl⟩)

/-- The range check raises what any of the three commands may raise. -/
theorem CodecAnswer.of_rangeCheck (cfg : Config) (i : Instr) (n : Nat) (e : Result)
    (h : rangeCheck cfg n = some e) : CodecAnswer cfg i e := by
  obtain ⟨-, -, hcheck⟩ | ⟨-, hcheck⟩ | ⟨-, hcheck⟩ := rangeCheck_cases cfg n
  · cases hcheck.symm.trans h
  · obtain rfl := Option.some.inj (hcheck.symm.trans h)
    exact .aboveMax cfg i n
  · obtain rfl := Option.some.inj (hcheck.symm.trans h)
    exact .belowMin cfg i

/-- An error only DECODE raises. -/
theorem CodecAnswer.malformed (cfg : Config) (f : List Byte) (sb : Sub) (exp rcv : Nat)
    (hrow : (Status.plain .malformedFrame sb (BitVec.ofNat 16 exp) (BitVec.ofNat 16 rcv)).isRow cfg) :
    CodecAnswer cfg (.decode f) (.raise .malformedFrame sb exp rcv) :=
  .raised _ _ _ _ (.inr ⟨rfl, f, rfl⟩) hrow

/-! ## DECODE, by its verdict -/

/-- Steps 4, 5 and 5a: the range errors, a byteCount other than twice a count in range, or that many values. -/
theorem fieldsVerdict_answer (cfg : Config) (f : List Byte) :
    CodecAnswer cfg (.decode f) (fieldsVerdict cfg f) := by
  unfold fieldsVerdict
  split_ifs with hmax hmin hcount
  · exact .aboveMax cfg _ _
  · exact .belowMin cfg _
  · have hbyte := (byteAt f 6).isLt
    have hreg := cfg.maxRegisters.isLt
    rw [halfAt_eq_zero_iff] at hmin
    apply CodecAnswer.malformed
    rw [Status.plain_isRow_byteCountMismatch, ne_eq, ← BitVec.toNat_inj, ofNat16_toNat _ (by omega),
      ofNat16_toNat _ (by omega)]
    omega
  · exact .reqser cfg _ (frameRequest f) (by rw [frameRequest_data_length]; omega)

theorem decodeVerdict_answer (cfg : Config) (f : List Byte) :
    CodecAnswer cfg (.decode f) (decodeVerdict cfg f) := by
  unfold decodeVerdict
  split_ifs with hheader hcode hdata
  · apply CodecAnswer.malformed
    rw [Status.plain_isRow_shortHeader, ofNat16_toNat _ (by omega)]
    exact ⟨rfl, hheader⟩
  · obtain ⟨hfc, hne⟩ := hcode
    have hbyte := (byteAt f 1).isLt
    have hnat : (byteAt f 1).toNat ≠ 16 := fun heq => hne (BitVec.eq_of_toNat_eq heq)
    have hrcv := ofNat16_toNat (byteAt f 1).toNat (by omega)
    apply CodecAnswer.malformed
    rw [Status.plain_isRow_functionCode]
    exact ⟨hfc, rfl, fun heq => hnat (hrcv.symm.trans (congrArg BitVec.toNat heq)), hrcv.trans_lt hbyte⟩
  · have hbyte := (byteAt f 6).isLt
    apply CodecAnswer.malformed
    rw [Status.plain_isRow_shortData, ofNat16_toNat _ (by omega), ofNat16_toNat _ (by omega)]
    omega
  · exact fieldsVerdict_answer cfg f

/-! ## The three commands -/

/-- A command that is no VALIDATE delivers one of the answers above. -/
theorem exec_codec (i : Instr) (s : State) (hcodec : ∀ r rsp, i ≠ .validate r rsp) :
    ∃ res, CodecAnswer s.cfg i res ∧ exec i s = .next (s.deliver res) := by
  cases i with
  | construct slave start data =>
    cases hcheck : rangeCheck s.cfg data.length with
    | none =>
      obtain ⟨-, hmax⟩ := inRange_of_rangeCheck_none s.cfg _ hcheck
      exact ⟨_, .reqser s.cfg _ _ hmax, exec_construct_of_inRange slave start data s hcheck⟩
    | some e =>
      exact ⟨e, .of_rangeCheck s.cfg _ _ e hcheck, exec_construct_of_rangeError slave start data s e hcheck⟩
  | encode r =>
    cases hcheck : rangeCheck s.cfg r.data.length with
    | none =>
      have hwf := inRange_of_rangeCheck_none s.cfg _ hcheck
      exact ⟨_, .done _ (by rw [wireFrame_length]; omega), exec_encode_of_WF r s hwf⟩
    | some e => exact ⟨e, .of_rangeCheck s.cfg _ _ e hcheck, exec_encode_of_rangeError r s e hcheck⟩
  | decode f => exact ⟨_, decodeVerdict_answer s.cfg f, exec_decode_verdict f s⟩
  | validate r rsp => exact absurd rfl (hcodec r rsp)

/-- Everything a command can do: VALIDATE writes its STATUS and empties OUT, any other delivers a codec answer. -/
theorem exec_next_cases (i : Instr) (s t : State) (hnext : exec i s = .next t) :
    (∃ r rsp, i = .validate r rsp ∧ t = s.complete (validateStatus r rsp) []) ∨
      (∀ r rsp, i ≠ .validate r rsp) ∧ ∃ res, CodecAnswer s.cfg i res ∧ t = s.deliver res := by
  by_cases hvalidate : ∃ r rsp, i = .validate r rsp
  · obtain ⟨r, rsp, rfl⟩ := hvalidate
    exact .inl ⟨r, rsp, rfl, next_unique hnext (exec_validate r rsp s)⟩
  · have hcodec : ∀ r rsp, i ≠ .validate r rsp := fun r rsp hi => hvalidate ⟨r, rsp, hi⟩
    obtain ⟨res, hanswer, hexec⟩ := exec_codec i s hcodec
    exact .inr ⟨hcodec, res, hanswer, next_unique hnext hexec⟩

/-- The codes of the three commands: OK, OUT_OF_RANGE, and MALFORMED_FRAME for DECODE alone. -/
theorem CodecAnswer.code_cases {cfg : Config} {i : Instr} {res : Result} (h : CodecAnswer cfg i res) :
    res.code = .ok ∨ res.code = .outOfRange ∨ res.code = .malformedFrame ∧ ∃ f, i = .decode f := by
  cases h with
  | done o hshort => exact .inl rfl
  | raised c sb exp rcv hcode hrow => exact .inr hcode

/-- The codes of VALIDATE: a mismatch of either field, or OK. -/
theorem validateStatus_code_cases (r : Req) (rsp : Rsp) :
    (validateStatus r rsp).code = .unexpectedStartAddress ∨
      (validateStatus r rsp).code = .unexpectedNumberOfPoints ∨ (validateStatus r rsp).code = .ok := by
  rw [validateStatus_code]
  split_ifs <;> simp

/-! ## The scope's statements on errors -/

/-- Settles O35: an answer with a CODE other than OK is a raised error, which fills in EXP_A and RCV_A alone. -/
theorem raisedErrorClearsTheRest : Obligations.RaisedErrorClearsTheRest := by
  unfold Obligations.RaisedErrorClearsTheRest
  intro i s t hcodec hnext hcode
  obtain ⟨res, hanswer, hexec⟩ := exec_codec i s hcodec
  obtain rfl := next_unique hexec hnext
  cases hanswer with
  | done o hshort => exact absurd rfl hcode
  | raised c sb exp rcv hkind hrow => exact ⟨rfl, rfl, rfl, rfl, rfl, rfl, rfl⟩

/-- Settles O36: the codes of VALIDATE and those of the other three commands share OK alone. -/
theorem errorsComeFromTheirCommands : Obligations.ErrorsComeFromTheirCommands := by
  unfold Obligations.ErrorsComeFromTheirCommands
  intro i s t hnext
  obtain ⟨r, rsp, rfl, rfl⟩ | ⟨hcodec, res, hanswer, rfl⟩ := exec_next_cases i s t hnext
  · rw [State.complete_status]
    obtain h | h | h := validateStatus_code_cases r rsp <;> simp [h]
  · rw [State.deliver_code]
    obtain h | h | ⟨h, f, rfl⟩ := hanswer.code_cases
    · simp [h]
    · simp [h, hcodec]
    · simp [h]

end Sys2Proof.Machine
end

section
/-! The invariant of the block is kept by every command, every event and every step (60_exceptions.md R126). -/

namespace Sys2Proof.Machine

/-! ## Completing a state that meets the invariant -/

/-- With an empty OUT any row of the table may stand in STATUS. -/
theorem State.Inv.complete_empty {s : State} (h : s.Inv) {st : Status} (hrow : st.isRow s.cfg) :
    (s.complete st []).Inv :=
  { cfgLegal := h.cfgLegal, statusRow := hrow, outEmpty := fun _ => rfl, outShort := Nat.zero_le _ }

theorem Status.success_isRow (cfg : Config) : Status.success.isRow cfg := ⟨rfl, rfl, rfl, rfl⟩

/-- A success may put in OUT whatever is no longer than the longest frame. -/
theorem State.Inv.complete_success {s : State} (h : s.Inv) {o : List Byte}
    (hshort : o.length ≤ 7 + 2 * s.cfg.maxRegisters.toNat) : (s.complete Status.success o).Inv :=
  { cfgLegal := h.cfgLegal, statusRow := Status.success_isRow s.cfg, outEmpty := fun hcode => absurd rfl hcode,
    outShort := hshort }

/-- The invariant does not speak of the pending program. -/
theorem State.Inv.set_pending {s : State} (h : s.Inv) (es : List HostEvent) : State.Inv { s with pending := es } :=
  { cfgLegal := h.cfgLegal, statusRow := h.statusRow, outEmpty := h.outEmpty, outShort := h.outShort }

theorem State.Inv.deliver_answer {s : State} (h : s.Inv) {i : Instr} {res : Result}
    (hanswer : CodecAnswer s.cfg i res) : (s.deliver res).Inv := by
  cases hanswer with
  | done o hshort => exact h.complete_success hshort
  | raised c sb exp rcv hcode hrow => exact h.complete_empty hrow

/-! ## VALIDATE and the packet decoder's refusals -/

/-- Each verdict of VALIDATE is a row: the flags are those of the two comparisons, and so is the context. -/
theorem validateStatus_isRow (cfg : Config) (r : Req) (rsp : Rsp) : (validateStatus r rsp).isRow cfg := by
  have hexpB (hcount : r.data.length = rsp.count.toNat) :
      (validateStatus r rsp).expB = (validateStatus r rsp).rcvB := by
    show BitVec.ofNat 16 r.data.length = rsp.count
    rw [hcount, BitVec.ofNat_toNat, BitVec.setWidth_eq]
  have hsub : (validateStatus r rsp).sub = .noSub := rfl
  by_cases hstart : r.start = rsp.start
  · by_cases hcount : r.data.length = rsp.count.toNat
    · simp only [Status.isRow, (validateStatus_code_eq_ok_iff r rsp).mpr ⟨hstart, hcount⟩, hsub]
      exact ⟨(validateStatus_mmStart_eq_false_iff r rsp).mpr hstart,
        (validateStatus_mmCount_eq_false_iff r rsp).mpr hcount, hstart, hexpB hcount⟩
    · simp only [Status.isRow, validateStatus_code_of_count_ne r rsp hstart hcount, hsub]
      exact ⟨(validateStatus_mmStart_eq_false_iff r rsp).mpr hstart, decide_eq_true hcount, hstart⟩
  · simp only [Status.isRow, validateStatus_code_of_start_ne r rsp hstart, hsub]
    exact ⟨decide_eq_true hstart, hstart, fun hcount => hexpB ((validateStatus_mmCount_eq_false_iff r rsp).mp hcount)⟩

theorem unknownCode_isRow (cfg : Config) (c : Byte) (hc : c ≠ 1 ∧ c ≠ 2 ∧ c ≠ 3 ∧ c ≠ 4) :
    (Status.plain .illegalCommand .unknownCode 0 (c.setWidth 16)).isRow cfg := by
  rw [Status.plain_isRow_unknownCode]
  obtain ⟨h1, h2, h3, h4⟩ := hc
  refine ⟨rfl, ?_, ?_, ?_, ?_, ?_⟩ <;> bv_omega

theorem State.Inv.rejectPacket {s : State} (h : s.Inv) {p : List Byte} {e : PacketError}
    (herror : decodePacket p = .error e) : (s.rejectPacket e).Inv := by
  obtain ⟨c, hc, rfl⟩ | ⟨expected, -, rfl⟩ := decodePacket_error_cases p e herror
  · rw [State.rejectPacket_unknownCode]
    exact h.complete_empty (unknownCode_isRow s.cfg c hc)
  · rw [State.rejectPacket_badLength]
    exact h.complete_empty (Status.plain_isRow_badLength s.cfg _ _)

/-! ## Commands, events and steps -/

theorem exec_keeps_inv {s t : State} (h : s.Inv) {i : Instr} (hnext : exec i s = .next t) : t.Inv := by
  obtain ⟨r, rsp, -, rfl⟩ | ⟨-, res, hanswer, rfl⟩ := exec_next_cases i s t hnext
  · exact h.complete_empty (validateStatus_isRow s.cfg r rsp)
  · exact h.deliver_answer hanswer

theorem State.Inv.resetBlock {s : State} (h : s.Inv) : s.resetBlock.Inv := h.complete_empty rfl

theorem issue_keeps_inv {s t : State} (h : s.Inv) {e : HostEvent} (hnext : issue e s = .next t) : t.Inv := by
  cases e with
  | packet p =>
    cases hp : decodePacket p with
    | ok i => exact exec_keeps_inv h ((issue_packet_of_decode p i s hp).symm.trans hnext)
    | error err =>
      obtain rfl := next_unique (issue_packet_of_error p err s hp) hnext
      exact h.rejectPacket hp
  | command i => exact exec_keeps_inv h hnext
  | reset =>
    obtain rfl := Host.Outcome.next.inj hnext
    exact h.resetBlock
  | resetInside p =>
    obtain rfl := Host.Outcome.next.inj hnext
    exact h.resetBlock

/-- Settles O38: an idle step keeps the state, and every event keeps the invariant. -/
theorem stepKeepsInvariant : Obligations.StepKeepsInvariant := by
  unfold Obligations.StepKeepsInvariant
  intro s t h hnext
  cases hpending : s.pending with
  | nil =>
    obtain rfl := next_unique (step_of_pending_nil s hpending) hnext
    exact h
  | cons e rest =>
    rw [step_of_pending_cons s e rest hpending] at hnext
    exact issue_keeps_inv (h.set_pending rest) hnext

end Sys2Proof.Machine
end

section
/-! Reset and the hazards of a transaction (70_reset_and_hazards.md R150, R153, R154). -/

namespace Sys2Proof.Machine

/-- What VALIDATE's OK says of the response: it repeats the request's start address and number of values
(41_validator.md R111). -/
theorem response_of_exec_validate (r : Req) (rsp : Rsp) (s u : State) (hnext : exec (.validate r rsp) s = .next u)
    (hok : u.status.code = .ok) : r.start = rsp.start ∧ r.data.length = rsp.count.toNat := by
  obtain rfl := next_unique (exec_validate r rsp s) hnext
  exact (validateStatus_code_eq_ok_iff r rsp).mp hok

/-- Settles O31: ENCODE put the frame of the sent request in OUT, and by the duty of R153 (log 20) that is the request
VALIDATE compared the response with. -/
theorem acceptedResponseAnswersSentFrame : Obligations.AcceptedResponseAnswersSentFrame := by
  unfold Obligations.AcceptedResponseAnswersSentFrame
  intro x s s' t u hduties _ hencode hsentOk hvalidate hrspOk
  obtain ⟨hsame, hvariant⟩ := hduties
  obtain ⟨-, hframe⟩ := WF_of_exec_encode x.sent s t hencode hsentOk
  obtain ⟨hstart, hcount⟩ := response_of_exec_validate x.validated x.rsp s' u hvalidate hrspOk
  rw [hsame] at hstart hcount
  rw [hframe, byteAt_wireFrame_functionCode, halfAt_wireFrame_start, halfAt_wireFrame_count, hcount,
    BitVec.ofNat_toNat, BitVec.setWidth_eq]
  exact ⟨hvariant, hstart.symm, rfl⟩

@[simp] theorem issue_reset (s : State) : issue .reset s = .next s.resetBlock := rfl

/-- A command that a reset overtakes leaves the effect of the reset alone (log 9). -/
@[simp] theorem issue_resetInside (p : List Byte) (s : State) : issue (.resetInside p) s = issue .reset s := rfl

/-- Settles O11: the event is taken off and the block reset; an overtaken command is issued as the reset is. -/
theorem resetRestoresLatches : Obligations.ResetRestoresLatches := by
  unfold Obligations.ResetRestoresLatches
  refine ⟨fun s rest hpending => ?between, fun s p rest => ?overtaken⟩
  case between =>
    rw [step_of_pending_cons s .reset rest hpending, issue_reset]
    rfl
  case overtaken =>
    rw [step_of_pending_cons _ (.resetInside p) rest rfl, step_of_pending_cons _ .reset rest rfl, issue_resetInside]

end Sys2Proof.Machine
end
